-- ==== Sys2Proof/Word.lean ====
section
/-! DEFINITION. The value widths of the spec's notation (00_scope.md R7): bytes, 32-bit registers, 64-bit words.
Every value is unsigned (R8). The byte and bit-field helpers stand in Machine/Ops.lean. -/

namespace Sys2Proof

/-- A byte: 8 bits (R7). -/
abbrev Byte := BitVec 8

/-- A register of the window: 32 bits (R7, R15). -/
abbrev Reg32 := BitVec 32

/-- A word: 64 bits (R7). -/
abbrev Word64 := BitVec 64

end Sys2Proof
end

