-- ==== Sys2Proof/Syntax.lean ====
section
/-! DEFINITION. The commands of the engine (30_encoding.md R61; spec/opcode_table.json): the engine is no processor
and its "instructions" are the command words a host writes to CMD (00_scope.md R2). -/

namespace Sys2Proof

/-- A command. One constructor per row of spec/opcode_table.json. -/
inductive Instr where
  /-- NOP: no operation (43_quickxorhash_pipeline.md R101). -/
  | nop
  /-- INIT: open a new run (R102). -/
  | init
  /-- ABSORB n: append n payload bytes to the stream (40_xor_folding_engine.md R76). The operand is the field NM1,
  three bits; the byte count is n = NM1 + 1, in 1..8 (30_encoding.md R62). Log entry 9. -/
  | absorb (nm1 : BitVec 3)
  /-- FINAL: close the stream and start realignment and length injection (R104). -/
  | final
  /-- FAIL: the source could not be read; close the run with the sentinel (R106). -/
  | fail
  deriving DecidableEq, Repr

end Sys2Proof
end

