-- ==== Sys2Proof/Decode.lean ====
section
/-! DEFINITION. The command word's decoder and encoder (30_encoding.md R59 to R67). A command is one 32-bit word, so
the decoder is total on every word (R64); each rejection has a name, and the machine treats all of them the same way
(R65). -/

namespace Sys2Proof

/-- Why a word is ILLEGAL (R65, R115). -/
inductive IllegalReason where
  /-- RSV, bits [31:7], is not 0. -/
  | reservedBits
  /-- NM1 is not 0 although OP is not ABSORB. -/
  | strayCount
  /-- OP is 0x5 to 0xF. -/
  | reservedOp
  deriving DecidableEq, Repr

/-- What the decoder returns: a command or ILLEGAL (R64). -/
inductive Decoded where
  | command (i : Instr)
  | illegal (r : IllegalReason)
  deriving DecidableEq, Repr

/-- OP, bits [3:0] (R60). -/
abbrev opField (v : Reg32) : BitVec 4 := v.extractLsb' 0 4

/-- NM1, bits [6:4] (R60). -/
abbrev nm1Field (v : Reg32) : BitVec 3 := v.extractLsb' 4 3

/-- RSV, bits [31:7] (R60). -/
abbrev rsvField (v : Reg32) : BitVec 25 := v.extractLsb' 7 25

/-- The decoder of R64, total on every word, in the order of its pseudocode. -/
def decode (v : Reg32) : Decoded :=
  if rsvField v ≠ 0 then .illegal .reservedBits
  else if opField v = 0x2 then .command (.absorb (nm1Field v))
  else if nm1Field v ≠ 0 then .illegal .strayCount
  else if opField v = 0x0 then .command .nop
  else if opField v = 0x1 then .command .init
  else if opField v = 0x3 then .command .final
  else if opField v = 0x4 then .command .fail
  else .illegal .reservedOp

/-- The command word of the fields of R60, from bit 31 down: RSV = 0, NM1, OP. -/
def commandWord (nm1 : BitVec 3) (op : BitVec 4) : Reg32 := (0 : BitVec 25) ++ nm1 ++ op

/-- The word of a command (R61, R62). -/
def encode : Instr → Reg32
  | .nop => commandWord 0 0x0
  | .init => commandWord 0 0x1
  | .absorb nm1 => commandWord nm1 0x2
  | .final => commandWord 0 0x3
  | .fail => commandWord 0 0x4

/-- The 32-bit word of a table row's bits `w`, of which the row gives the low `nbits`; every bit above is 0. -/
def tableWord (nbits w : Nat) : Reg32 := BitVec.ofNat 32 (w % 2 ^ nbits)

/-- The instruction the decoder reads from a word numbered as spec/opcode_table.json numbers it. A command is one
32-bit word, so a longer one is none. -/
def decodeTableWord (nbits w : Nat) : Option Instr :=
  if nbits ≤ 32 then
    match decode (tableWord nbits w) with
    | .command i => some i
    | .illegal _ => none
  else none

end Sys2Proof
end

