-- ==== Sys2Proof/Machine/State.lean ====
section
/-! DEFINITION. The state. `Engine` holds exactly the elements of 10_state.md R37 (the spec: "The Lean model's state
record should have exactly these fields"). `State` adds what the engine's environment does next, as plain data: the
host's pending accesses in bus order (20_memory.md R51), which agent moves next (R52, R132), and what the bus answered
(log entries 1, 2, 19). The engine has no memory of its own (R39), so no memory cells stand here (log entry 7). -/

namespace Sys2Proof.Machine

/-- The Accumulator's type: 20 words of 64 bits, 160 bytes (R31; 90_conflicts.md C1). -/
abbrev Acc := Vector Word64 20

/-- A Byte Block: 20 bytes (00_scope.md glossary; 90_conflicts.md C2). -/
abbrev Block := Vector Byte 20

/-- STATUS.STATE, the only sequencing state (R14, R20). -/
inductive RunState where
  /-- 0: no run is open. -/
  | idle
  /-- 1: a run is open. -/
  | absorb
  /-- 2: FINAL accepted, COMPLETE pending (R35). -/
  | busy
  /-- 3: the run is closed. -/
  | done
  deriving DecidableEq, Repr

/-- The engine errors (60_exceptions.md R114). They are recorded, never trapped (R122). -/
inductive ErrorCode where
  /-- Code 1, ILLEGAL_CMD (R115). -/
  | illegalCmd
  /-- Code 2, SEQUENCE (R116). -/
  | sequence
  /-- Code 3, LENGTH_OVERFLOW (R117). -/
  | lengthOverflow
  deriving DecidableEq, Repr

/-- The engine's architectural state, every element of R37 (log entry 10 on the enumerations). -/
structure Engine where
  /-- ACC, the Accumulator (R31). -/
  acc : Acc
  /-- LEN, the count of absorbed bytes (R32). -/
  len : Word64
  /-- DIG, the digest register (R33). -/
  dig : Block
  /-- STATUS.STATE (R20). -/
  st : RunState
  /-- STATUS.DVALID (R21). -/
  dvalid : Bool
  /-- STATUS.SRCERR (R22). -/
  srcerr : Bool
  /-- STATUS.ERR_CMD (R23). -/
  errCmd : Bool
  /-- STATUS.ERR_SEQ (R23). -/
  errSeq : Bool
  /-- STATUS.ERR_LEN (R23). -/
  errLen : Bool
  /-- STATUS.FIRST_ERR (R24); `none` is code 0. -/
  firstErr : Option ErrorCode
  /-- CFG.COMPAT (R17). -/
  compat : Bool
  /-- CFG.IE (R17). -/
  ie : Bool
  /-- DATA_LO (R26). -/
  dataLo : Reg32
  /-- DATA_HI (R26). -/
  dataHi : Reg32
  deriving DecidableEq, Repr

/-- The reset value of every state element (R37). -/
def Engine.reset : Engine :=
  { acc := Vector.replicate 20 0, len := 0, dig := Vector.replicate 20 0, st := .idle,
    dvalid := false, srcerr := false, errCmd := false, errSeq := false, errLen := false,
    firstErr := none, compat := false, ie := false, dataLo := 0, dataHi := 0 }

/-- A bus access reads, or writes a value. -/
inductive Direction where
  | read
  | write (v : Reg32)
  deriving DecidableEq, Repr

/-- A host's access to the register window: its byte offset, which is all the engine decodes (R40), its width in bits,
its enabled byte lanes and its direction. Which accesses the engine accepts is R41. -/
structure Access where
  off : BitVec 12
  bits : Nat
  lanes : BitVec 4
  dir : Direction
  deriving DecidableEq, Repr

/-- What a host does next: one access, or a POLL loop, which reads a register until (read & mask) = value
(30_encoding.md R68). -/
inductive HostAction where
  | access (a : Access)
  | poll (off : BitVec 12) (mask value : Reg32)
  deriving DecidableEq, Repr

/-- Who takes the next atomic step: the host, the engine's completion agent (20_memory.md R52), or the platform's
reset input (70_reset_and_hazards.md R132). -/
inductive Turn where
  | host
  | engine
  | reset
  deriving DecidableEq, Repr

/-- What the bus answers to an accepted access. -/
inductive BusResponse where
  | readData (v : Reg32)
  | writeDone
  deriving DecidableEq, Repr

/-- The engine and its environment. -/
structure State where
  /-- The engine's own state. -/
  engine : Engine
  /-- The host's pending actions, in bus order (R51). The model's own field, log entry 1. -/
  host : List HostAction
  /-- The agents' next turns; what happens when it is empty is log entry 2. The model's own field. -/
  schedule : List Turn
  /-- The bus's answers so far, newest first: the observations of RD and POLL (R68). The model's own field. -/
  responses : List BusResponse
  deriving DecidableEq, Repr

/-- The machine right after reset (R37), with no access pending: log entries 1 and 8. -/
def State.reset : State :=
  { engine := Engine.reset, host := [], schedule := [], responses := [] }

/-- The engine has no trap: an error is recorded in STATUS and the machine goes on (60_exceptions.md R122), so nothing
raises a fault and the type is empty. Safe: log entry 20. -/
inductive Fault where
  deriving DecidableEq, Repr

/-- Why the model has no move. -/
inductive Refusal where
  /-- An instruction without a meaning, raised by exec's arms. Safe. No arm raises it now. -/
  | notModelled (mnemonic : String)
  /-- BusError, raised by a host's turn on an access that is not an aligned 32-bit access with all lanes
  (20_memory.md R42; R119: "A Lean model treats it as a refusal, not a step"). Safe: log entry 4. -/
  | busError
  deriving DecidableEq, Repr

/-- What a step answers. -/
abbrev Outcome := Host.Outcome State Fault Refusal

end Sys2Proof.Machine
end

