-- ==== Sys2Proof/Machine/BusAccess.lean ====
section
/-! DEFINITION. Which bus accesses the engine accepts (20_memory.md R41, R42), and the two accesses of the pseudocode,
RegRead(off) and RegWrite(off, v) (00_scope.md R11). -/

namespace Sys2Proof.Machine

/-- The access is 32 bits wide (R41). -/
def Access.fullWidth (a : Access) : Bool := a.bits == 32

/-- off[1:0] = 0 (R41). -/
def Access.aligned (a : Access) : Bool := a.off.extractLsb' 0 2 == 0

/-- All four byte lanes are enabled (R41; log entry 5). -/
def Access.allLanes (a : Access) : Bool := a.lanes == 0xF

/-- The engine accepts the access (R41); any other raises BusError (R42). -/
def Access.accepted (a : Access) : Bool := a.fullWidth && a.aligned && a.allLanes

/-- RegRead(off) as an access (R11). -/
def Access.readOf (off : BitVec 12) : Access := { off := off, bits := 32, lanes := 0xF, dir := .read }

/-- RegWrite(off, v) as an access (R11). -/
def Access.writeOf (off : BitVec 12) (v : Reg32) : Access :=
  { off := off, bits := 32, lanes := 0xF, dir := .write v }

/-- The access a host's action makes at its turn; a POLL reads its register (30_encoding.md R68). -/
def HostAction.toAccess : HostAction → Access
  | .access a => a
  | .poll off _ _ => Access.readOf off

end Sys2Proof.Machine
end

