-- ==== Sys2Proof/Machine/Ops.lean ====
section
/-! DEFINITION. The named operations the meanings share: the byte views and byte orders of the notation (00_scope.md
R7 to R10), the Accumulator's byte view (10_state.md R31), recording an error and clearing the errors (60_exceptions.md
R113, R123). An error is this engine's only exception: it saves nothing but STATUS fields and sends control nowhere
(R122). -/

namespace Sys2Proof

/-- Byte `j` of a value: bits [8j+7:8j] (R7, R9). -/
def byteAt {w : Nat} (v : BitVec w) (j : Nat) : Byte := v.extractLsb' (8 * j) 8

/-- The little-endian value of a list of bytes: the sum of bs[j] * 2^(8j), in `w` bits (R9). -/
def packLE (w : Nat) : List Byte → BitVec w
  | [] => 0
  | b :: bs => b.setWidth w ||| (packLE w bs <<< 8)

/-- Entry `i` of an array of the engine. No rule uses an index past the end; there it reads 0 (log entry 15). -/
def entry {w n : Nat} (v : Vector (BitVec w) n) (i : Nat) : BitVec w := v[i]?.getD 0

namespace Machine

/-- int160: a block as a 160-bit integer, byte 0 least significant (R9). -/
def int160 (x : Block) : BitVec 160 := packLE 160 x.toList

/-- bytes20: the inverse of int160 (R9). -/
def bytes20 (v : BitVec 160) : Block := Vector.ofFn fun j => byteAt v j.val

/-- le64: the little-endian 8-byte encoding of a length (R9). -/
def le64 (l : Word64) (j : Nat) : Byte := byteAt l j

/-- rotl160: left rotation of a 160-bit value (R10). -/
def rotl160 (v : BitVec 160) (s : Nat) : BitVec 160 :=
  if s = 0 then v else (v <<< s) ||| (v >>> (160 - s))

/-- The zero Accumulator. -/
def Acc.zero : Acc := Vector.replicate 20 0

/-- The block of 20 zero bytes, which is also the sentinel (R106). -/
def Block.zero : Block := Vector.replicate 20 0

/-- accb[i], the byte view of the Accumulator: ACC[i div 8][8(i mod 8)+7 : 8(i mod 8)] (R31, R45). -/
def accByte (a : Acc) (i : Nat) : Byte := byteAt (entry a (i / 8)) (i % 8)

/-- accb[p] <- accb[p] ^ b, in the word that holds byte p (R31, R76). -/
def xorByteAt (a : Acc) (p : Nat) (b : Byte) : Acc :=
  a.setIfInBounds (p / 8) (entry a (p / 8) ^^^ (b.setWidth 64 <<< (8 * (p % 8))))

/-- The word-wise XOR of two Accumulators. -/
def accXor (a b : Acc) : Acc := Vector.ofFn fun i => entry a i.val ^^^ entry b i.val

/-- The byte-wise XOR of two blocks. -/
def blockXor (x y : Block) : Block := Vector.ofFn fun j => entry x j.val ^^^ entry y j.val

/-- raise Error(code): set the error's sticky flag, and FIRST_ERR if it is none (R113, R24). Nothing else is
written. -/
def Engine.raise (c : ErrorCode) (e : Engine) : Engine :=
  { e with
    errCmd := e.errCmd || c == .illegalCmd
    errSeq := e.errSeq || c == .sequence
    errLen := e.errLen || c == .lengthOverflow
    firstErr := e.firstErr.or (some c) }

/-- Clear the error flags and FIRST_ERR: what INIT does (R102, R123), in place of a return from a trap. -/
def Engine.clearErrors (e : Engine) : Engine :=
  { e with errCmd := false, errSeq := false, errLen := false, firstErr := none }

/-- An erroneous command: the error is recorded and the command ends with no other effect (R113). -/
def State.raise (c : ErrorCode) (s : State) : State := { s with engine := s.engine.raise c }

/-- Replace the engine's state; the host and the bus are untouched. -/
def State.withEngine (e : Engine) (s : State) : State := { s with engine := e }

/-- Log the bus's answer to an access (R68). -/
def State.respond (r : BusResponse) (s : State) : State := { s with responses := r :: s.responses }

end Machine

end Sys2Proof
end

