-- ==== Sys2Proof/Machine/ByteRealignerRotator.lean ====
section
/-! DEFINITION. The Byte Realigner (41_byte_realigner_rotator.md): REALIGN as the source's algorithm (R81 to R88), and
its closed form (R89), which the statements compare with it. The Shift Groups exist only here (10_state.md R34). -/

namespace Sys2Proof.Machine

/-- truePos = (i * 11) mod 160 (R82). -/
def truePos (i : Nat) : Nat := i * 11 % 160

/-- shift = truePos mod 8: the Shift Group of raw byte i (R82). -/
def shiftOf (i : Nat) : Nat := truePos i % 8

/-- alignIndex = truePos div 8: the offset in its Shift Group (R82). -/
def alignIndex (i : Nat) : Nat := truePos i / 8

/-- G[s][a] <- b (R82). -/
def placeAt (g : Vector Block 8) (s a : Nat) (b : Byte) : Vector Block 8 :=
  g.setIfInBounds s ((g[s]?.getD Block.zero).setIfInBounds a b)

/-- The eight Shift Groups: every raw byte i placed at its slot. Each slot is written once, so the zeros the groups
start from never show (R82 to R84; log entry 16). -/
def shiftGroups (a : Acc) : Vector Block 8 :=
  (List.range 160).foldl (fun g i => placeAt g (shiftOf i) (alignIndex i) (accByte a i))
    (Vector.replicate 8 Block.zero)

/-- rotl_bytes: left-rotate a block by s bits, 1 <= s <= 7, the carry of byte 19 wrapping into byte 0 (R85). -/
def rotlBytes (g : Block) (s : Nat) : Block :=
  Vector.ofFn fun j => (entry g j.val <<< s) ||| (entry g ((j.val + 19) % 20) >>> (8 - s))

/-- Shift Group s after the rotation step; group 0 is not rotated (R85, R86). -/
def rotatedGroup (g : Vector Block 8) (s : Nat) : Block :=
  if s = 0 then g[s]?.getD Block.zero else rotlBytes (g[s]?.getD Block.zero) s

/-- The eight groups XORed together byte by byte (R87). -/
def combineGroups (g : Vector Block 8) : Block :=
  (List.range 8).foldl (fun r s => blockXor r (rotatedGroup g s)) Block.zero

/-- The final step: output byte j is result byte 19 - j (R88). -/
def reverseBlock (r : Block) : Block := Vector.ofFn fun j => entry r (19 - j.val)

/-- REALIGN (R81): place, rotate, combine, reverse. -/
def realign (a : Acc) : Block := reverseBlock (combineGroups (shiftGroups a))

/-- The 160-bit value S of the closed form: every byte at bit offset 11 i mod 160 (R89). -/
def skewedSum (a : Acc) : BitVec 160 :=
  (List.range 160).foldl (fun v i => v ^^^ rotl160 ((accByte a i).setWidth 160) (11 * i % 160)) 0

end Sys2Proof.Machine
end

