-- ==== Sys2Proof/Machine/LengthInjector.lean ====
section
/-! DEFINITION. The Length Injector (42_length_injector.md R92 to R94). -/

namespace Sys2Proof.Machine

/-- INJECT: the little-endian length is XORed into bytes 0..7, bytes 8..19 pass through (R93; 90_conflicts.md C7). -/
def inject (x : Block) (l : Word64) : Block :=
  Vector.ofFn fun j => if j.val < 8 then entry x j.val ^^^ le64 l j.val else entry x j.val

end Sys2Proof.Machine
end

