-- ==== Sys2Proof/Machine/Flags.lean ====
section
/-! DEFINITION. What the engine computes from its state: the codes of STATE and FIRST_ERR (10_state.md R20, R24), the
interrupt output (R36), the STATUS and CFG words (R19, R17), and the range check on LEN (60_exceptions.md R117). -/

namespace Sys2Proof.Machine

/-- The encoding of STATUS.STATE (R20). -/
def RunState.code : RunState → BitVec 2
  | .idle => 0
  | .absorb => 1
  | .busy => 2
  | .done => 3

/-- The encoding of an error (R114). -/
def ErrorCode.code : ErrorCode → BitVec 2
  | .illegalCmd => 1
  | .sequence => 2
  | .lengthOverflow => 3

/-- FIRST_ERR as a field: 0 is no error (R24, R114). -/
def Engine.firstErrCode (e : Engine) : BitVec 2 :=
  match e.firstErr with
  | none => 0
  | some c => c.code

/-- The interrupt output, a level: irq = IE & (STATE = DONE or ERR_CMD or ERR_SEQ or ERR_LEN) (R36, R124). -/
def Engine.irq (e : Engine) : Bool :=
  e.ie && (e.st == .done || e.errCmd || e.errSeq || e.errLen)

/-- One bit of a register. -/
def bit (b : Bool) : BitVec 1 := BitVec.ofBool b

/-- The STATUS word, from bit 31 down: reserved [31:10], FIRST_ERR [9:8], IRQ, ERR_LEN, ERR_SEQ, ERR_CMD, SRCERR,
DVALID, STATE [1:0] (R19). -/
def Engine.statusWord (e : Engine) : Reg32 :=
  (0 : BitVec 22) ++ e.firstErrCode ++ bit e.irq ++ bit e.errLen ++ bit e.errSeq ++ bit e.errCmd
    ++ bit e.srcerr ++ bit e.dvalid ++ e.st.code

/-- The CFG word, from bit 31 down: reserved [31:2], IE, COMPAT (R17). -/
def Engine.cfgWord (e : Engine) : Reg32 := (0 : BitVec 30) ++ bit e.ie ++ bit e.compat

/-- LEN > 2^64 - 1 - n: the ABSORB would take LEN past 2^64 - 1 (R117). -/
def Engine.lengthOverflows (e : Engine) (n : Nat) : Bool := decide (2 ^ 64 - 1 - n < e.len.toNat)

end Sys2Proof.Machine
end

