-- ==== Sys2Proof/Machine/Operands.lean ====
section
/-! DEFINITION. The operands of a command: the byte count of the command word (30_encoding.md R62) and the payload of
DATA_LO and DATA_HI (R63, 10_state.md R26). No command has any other operand (R13, R63). -/

namespace Sys2Proof.Machine

/-- n = NM1 + 1, in 1..8 (R62). -/
def byteCount (nm1 : BitVec 3) : Nat := nm1.toNat + 1

/-- The payload bytes P[0..7] of two payload registers: DATA_LO lanes 0..3, then DATA_HI lanes 0..3 (R26, R63). -/
def payloadOf (lo hi : Reg32) : List Byte :=
  [byteAt lo 0, byteAt lo 1, byteAt lo 2, byteAt lo 3, byteAt hi 0, byteAt hi 1, byteAt hi 2, byteAt hi 3]

/-- The payload the engine holds. -/
def Engine.payload (e : Engine) : List Byte := payloadOf e.dataLo e.dataHi

/-- ABSORB's data operand: the first n payload bytes; bytes n..7 are not read (R63). -/
def Engine.operand (e : Engine) (n : Nat) : List Byte := e.payload.take n

end Sys2Proof.Machine
end

