-- ==== Sys2Proof/Machine/XorFoldingEngine.lean ====
section
/-! DEFINITION. The Block Folder (40_xor_folding_engine.md): FOLD as the source's contract (R71), as its step-by-step
algorithm with the tail (R72, R73), in byte form (R75), and the command ABSORB (R76). -/

namespace Sys2Proof.Machine

/-- Word i of window w of the message, zero-padded, packed little-endian (R71). -/
def windowWord (m : List Byte) (w i : Nat) : Word64 :=
  packLE 64 ((List.range 8).map fun j => m.getD (160 * w + 8 * i + j) 0)

/-- Window w of the zero-padded message. -/
def window (m : List Byte) (w : Nat) : Acc := Vector.ofFn fun i => windowWord m w i.val

/-- FOLD, the contract: the XOR of all windows of the zero-padded message (R71). -/
def fold (m : List Byte) : Acc :=
  (List.range ((m.length + 159) / 160)).foldl (fun a w => accXor a (window m w)) Acc.zero

/-- Word q of the input: bytes 8q..8q+7, or fewer at its end, packed little-endian into the low bytes (R72, R73). -/
def inputWord (m : List Byte) (q : Nat) : Word64 := packLE 64 ((m.drop (8 * q)).take 8)

/-- N = floor(L / 8), the count of full words (R72). -/
def fullWords (m : List Byte) : Nat := m.length / 8

/-- R, the count of words in the tail block (R73). -/
def tailWords (m : List Byte) : Nat :=
  if m.length % 8 ≠ 0 then fullWords m % 20 + 1 else fullWords m % 20

/-- The tail block: words 0..R-1 are the remaining bytes, words R..19 are zero (R73; 90_conflicts.md C3). -/
def tailBlock (m : List Byte) : Acc :=
  Vector.ofFn fun i =>
    if i.val < tailWords m then inputWord m (20 * (fullWords m / 20) + i.val) else 0

/-- FOLD, the algorithm: the floor(N / 20) complete windows, then the tail block unless R is 0 (R72 to R74). -/
def foldBySteps (m : List Byte) : Acc :=
  let full := (List.range (fullWords m / 20)).foldl
    (fun a w => accXor a (Vector.ofFn fun i => inputWord m (20 * w + i.val))) Acc.zero
  if tailWords m = 0 then full else accXor full (tailBlock m)

/-- FOLD, byte i of its byte form: the XOR of the stream bytes M[k] with k mod 160 = i (R75). -/
def foldByte (m : List Byte) (i : Nat) : Byte :=
  (List.range m.length).foldl (fun b k => if k % 160 = i then b ^^^ m.getD k 0 else b) 0

/-- XOR the bytes into the Accumulator at the stream positions len, len+1, ...: byte j goes to accb[(len + j) mod 160]
(R76). -/
def absorbBytes (a : Acc) (len : Nat) : List Byte → Acc
  | [] => a
  | b :: bs => absorbBytes (xorByteAt a (len % 160) b) (len + 1) bs

/-- The effect of an accepted ABSORB n (R76). -/
def Engine.absorb (n : Nat) (e : Engine) : Engine :=
  { e with
    acc := absorbBytes e.acc e.len.toNat (e.operand n)
    len := e.len + BitVec.ofNat 64 n }

/-- ABSORB n (R76): SEQUENCE unless STATE = ABSORB, then LENGTH_OVERFLOW, then the fold (R120). -/
def execAbsorb (nm1 : BitVec 3) (s : State) : Outcome :=
  if s.engine.st ≠ .absorb then .next (s.raise .sequence)
  else if s.engine.lengthOverflows (byteCount nm1) then .next (s.raise .lengthOverflow)
  else .next (s.withEngine (s.engine.absorb (byteCount nm1)))

end Sys2Proof.Machine
end

