-- ==== Sys2Proof/Machine/QuickXorHashPipeline.lean ====
section
/-! DEFINITION. The pipeline (43_quickxorhash_pipeline.md): the digest as a function (R97), the commands NOP, INIT,
FINAL and FAIL (R101, R102, R104, R106), and the engine's own step COMPLETE (R105). -/

namespace Sys2Proof.Machine

/-- QXH_DIGEST(accb, L) = INJECT(REALIGN(accb), L) (R97). -/
def qxhDigest (a : Acc) (l : Word64) : Block := inject (realign a) l

/-- QXH(M) = QXH_DIGEST(FOLD(M), |M|) (R97), for |M| <= 2^64 - 1 (R96). -/
def qxh (m : List Byte) : Block := qxhDigest (fold m) (BitVec.ofNat 64 m.length)

/-- NOP: nothing, in every state (R101). -/
def execNop (s : State) : Outcome := .next s

/-- The effect of an accepted INIT: a fresh Accumulator, length and digest, no flags (R102). -/
def Engine.openRun (e : Engine) : Engine :=
  { e.clearErrors with
    acc := Acc.zero, len := 0, dig := Block.zero, dvalid := false, srcerr := false, st := .absorb }

/-- INIT: SEQUENCE in BUSY, else open a run (R102). -/
def execInit (s : State) : Outcome :=
  if s.engine.st = .busy then .next (s.raise .sequence)
  else .next (s.withEngine s.engine.openRun)

/-- The effect of an accepted FINAL: COMPLETE is now enabled (R104). -/
def Engine.closeStream (e : Engine) : Engine := { e with st := .busy }

/-- FINAL: SEQUENCE outside ABSORB and while ERR_LEN = 1, else BUSY (R104). -/
def execFinal (s : State) : Outcome :=
  if s.engine.st ≠ .absorb then .next (s.raise .sequence)
  else if s.engine.errLen then .next (s.raise .sequence)
  else .next (s.withEngine s.engine.closeStream)

/-- The effect of an accepted FAIL: the sentinel, valid as a digest only in compatible mode (R106). -/
def Engine.failRun (e : Engine) : Engine :=
  { e with
    acc := Acc.zero, len := 0, dig := Block.zero, srcerr := true, dvalid := e.compat, st := .done }

/-- FAIL: SEQUENCE in BUSY, else close the run with the sentinel (R106). -/
def execFail (s : State) : Outcome :=
  if s.engine.st = .busy then .next (s.raise .sequence)
  else .next (s.withEngine s.engine.failRun)

/-- COMPLETE (R105), enabled exactly when STATE = BUSY; elsewhere the completion agent has no step and the engine
keeps its state (log entry 3). -/
def Engine.complete (e : Engine) : Engine :=
  if e.st = .busy then { e with dig := qxhDigest e.acc e.len, dvalid := true, st := .done } else e

end Sys2Proof.Machine
end

