-- ==== Sys2Proof/Machine/Dispatch.lean ====
section
/-! DEFINITION. One arm per command: R99's "perform c". -/

namespace Sys2Proof.Machine

def exec (i : Instr) (s : State) : Host.Outcome State Fault Refusal :=
  match i with
  | .nop => Sys2Proof.Machine.execNop s
  | .init => Sys2Proof.Machine.execInit s
  | .absorb nm1 => Sys2Proof.Machine.execAbsorb nm1 s
  | .final => Sys2Proof.Machine.execFinal s
  | .fail => Sys2Proof.Machine.execFail s

end Sys2Proof.Machine
end

