-- ==== Sys2Proof/Config.lean ====
section
/-! DEFINITION. What an implementation fixes (00_scope.md R5, R6). The algorithm's parameters of R5 are "not
tunable" and stand as literals in the functions that use them. The one OPEN value a rule names is QXH_BASE (R6, R40). -/

namespace Sys2Proof

/-- The constant the ID register holds, 0x5158_4801 (10_state.md R16). -/
def Config.idValue : Reg32 := 0x51584801

/-- The platform's choice of the register window: the page number of QXH_BASE. OPEN (R6, D3): no value is given and
nothing can be proved of one. Log entry 6. -/
opaque Config.qxhPage : Nat

/-- The number of bytes of the register window (R6 OFFSET_BITS = 12, R15). -/
abbrev Config.windowSize : Nat := 4096

/-- QXH_BASE, the base address of the register window, 4096-byte aligned (R6, R40). -/
def Config.qxhBase : Nat := Config.windowSize * Config.qxhPage

end Sys2Proof
end

