-- ==== Sys2Proof/Machine/RegisterMap.lean ====
section
/-! DEFINITION. The register window (10_state.md R15 to R30): which register an offset names, what a read of it returns
(43_quickxorhash_pipeline.md R107), and what a write to a plain register stores (R108). A write to CMD performs a
command and stands in Machine/RegisterBus.lean. -/

namespace Sys2Proof.Machine

/-- The registers of R15. Every other offset is reserved (R30). -/
inductive Register where
  | id
  | cfg
  | cmd
  | status
  | dataLo
  | dataHi
  | lenLo
  | lenHi
  | digest (k : Fin 5)
  | acc (m : Fin 40)
  deriving DecidableEq, Repr

/-- off(reg) (R15, 30_encoding.md R70). -/
def Register.offset : Register → BitVec 12
  | .id => 0x000
  | .cfg => 0x004
  | .cmd => 0x008
  | .status => 0x00C
  | .dataLo => 0x010
  | .dataHi => 0x014
  | .lenLo => 0x018
  | .lenHi => 0x01C
  | .digest k => BitVec.ofNat 12 (0x020 + 4 * k.val)
  | .acc m => BitVec.ofNat 12 (0x100 + 4 * m.val)

/-- The register at an aligned offset, by its word index off / 4; none at a reserved offset (R15, R30). -/
def registerAt (off : BitVec 12) : Option Register :=
  match off.toNat / 4 with
  | 0 => some .id
  | 1 => some .cfg
  | 2 => some .cmd
  | 3 => some .status
  | 4 => some .dataLo
  | 5 => some .dataHi
  | 6 => some .lenLo
  | 7 => some .lenHi
  | q =>
    if h : 8 ≤ q ∧ q ≤ 12 then some (.digest ⟨q - 8, by omega⟩)
    else if h : 64 ≤ q ∧ q ≤ 103 then some (.acc ⟨q - 64, by omega⟩)
    else none

/-- DIGESTk: the four digest bytes 4k..4k+3, lane j being byte 4k+j, if DVALID; else 0 (R28). -/
def Engine.digestWord (e : Engine) (k : Nat) : Reg32 :=
  if e.dvalid then packLE 32 [entry e.dig (4 * k), entry e.dig (4 * k + 1), entry e.dig (4 * k + 2), entry e.dig (4 * k + 3)]
  else 0

/-- ACCm: the accumulator bytes 4m..4m+3, in every state (R29). -/
def Engine.accWord (e : Engine) (m : Nat) : Reg32 :=
  packLE 32 [accByte e.acc (4 * m), accByte e.acc (4 * m + 1), accByte e.acc (4 * m + 2), accByte e.acc (4 * m + 3)]

/-- What a read of a register returns (R16 to R29). CMD is write-only and reads 0 (R18). -/
def Register.read (e : Engine) : Register → Reg32
  | .id => Config.idValue
  | .cfg => e.cfgWord
  | .cmd => 0
  | .status => e.statusWord
  | .dataLo => e.dataLo
  | .dataHi => e.dataHi
  | .lenLo => e.len.extractLsb' 0 32
  | .lenHi => e.len.extractLsb' 32 32
  | .digest k => e.digestWord k.val
  | .acc m => e.accWord m.val

/-- RegRead(off) of an aligned offset: the register's value, 0 at a reserved offset (R107, R30). -/
def regRead (e : Engine) (off : BitVec 12) : Reg32 :=
  match registerAt off with
  | some r => r.read e
  | none => 0

/-- A write to CFG: COMPAT and IE take bits 0 and 1, bits [31:2] are ignored (R17, R108). -/
def Engine.writeCfg (v : Reg32) (e : Engine) : Engine :=
  { e with compat := v.getLsbD 0, ie := v.getLsbD 1 }

/-- A write to DATA_LO (R26, R108). -/
def Engine.writeDataLo (v : Reg32) (e : Engine) : Engine := { e with dataLo := v }

/-- A write to DATA_HI (R26, R108). -/
def Engine.writeDataHi (v : Reg32) (e : Engine) : Engine := { e with dataHi := v }

/-- The bus address of an offset: QXH_BASE + off (20_memory.md R40). -/
def busAddress (off : BitVec 12) : Nat := Config.qxhBase + off.toNat

/-- The offset a bus address reaches; what lies outside the window is the platform's business (R40). -/
def windowOffset (addr : Nat) : Option (BitVec 12) :=
  if Config.qxhBase ≤ addr ∧ addr < Config.qxhBase + Config.windowSize then
    some (BitVec.ofNat 12 (addr - Config.qxhBase))
  else none

end Sys2Proof.Machine
end

