-- ==== Sys2Proof/Machine/RegisterBus.lean ====
section
/-! DEFINITION. The bus and the agents' steps: a write to CMD (43_quickxorhash_pipeline.md R99), a register write (R108),
an access (20_memory.md R41, R42), the host's turn, the completion agent's turn (R52, R105), reset
(70_reset_and_hazards.md R132). Each is one atomic step (R50, R51). -/

namespace Sys2Proof.Machine

/-- A write of v to CMD: decode, then ILLEGAL_CMD or the command (R99). Every ILLEGAL word is treated the same way
(R65). -/
def commandWrite (v : Reg32) (s : State) : Outcome :=
  match decode v with
  | .command i => exec i s
  | .illegal _ => .next (s.raise .illegalCmd)

/-- RegWrite(off, v) of an aligned offset (R108): CMD performs a command, CFG and the payload registers store,
anything else is ignored. -/
def regWrite (off : BitVec 12) (v : Reg32) (s : State) : Outcome :=
  match registerAt off with
  | some .cmd => commandWrite v s
  | some .cfg => .next (s.withEngine (s.engine.writeCfg v))
  | some .dataLo => .next (s.withEngine (s.engine.writeDataLo v))
  | some .dataHi => .next (s.withEngine (s.engine.writeDataHi v))
  | _ => .next s

/-- An access by the host: BusError unless accepted (R41, R42). A write's answer is the same whether or not its command
raised an error (60_exceptions.md R113). -/
def performAccess (a : Access) (s : State) : Outcome :=
  if a.accepted then
    match a.dir with
    | .read => .next (s.respond (.readData (regRead s.engine a.off)))
    | .write v => regWrite a.off v (s.respond .writeDone)
  else .refused .busError

/-- One round of a POLL loop: a read, after which the host goes on with `rest` if (read & mask) = value and else polls
again (30_encoding.md R68; log entry 17). -/
def performPoll (off : BitVec 12) (mask value : Reg32) (rest : List HostAction) (s : State) : Outcome :=
  if (Access.readOf off).accepted then
    let v := regRead s.engine off
    .next ({ s with host := if v &&& mask = value then rest else s.host }.respond (.readData v))
  else .refused .busError

/-- The host's turn: its next action; nothing if it has none (log entry 3). -/
def hostTurn (s : State) : Outcome :=
  match s.host with
  | [] => .next s
  | .access a :: rest => performAccess a { s with host := rest }
  | .poll off mask value :: rest => performPoll off mask value rest s

/-- The completion agent's turn (R52, R105). -/
def engineTurn (s : State) : Outcome := .next (s.withEngine s.engine.complete)

/-- Reset: every element of the engine takes its reset value, in one step; the host's pending accesses are not the
engine's (R132, R133; log entry 19). -/
def resetTurn (s : State) : Outcome := .next (s.withEngine Engine.reset)

/-- One agent's turn. -/
def takeTurn (t : Turn) (s : State) : Outcome :=
  match t with
  | .host => hostTurn s
  | .engine => engineTurn s
  | .reset => resetTurn s

/-- Who moves when the schedule is used up: the completion agent while COMPLETE is enabled, else the host. This is how
the weak fairness of R143 shows in a deterministic step (log entry 2). -/
def State.nextTurn (s : State) : Turn :=
  match s.schedule with
  | t :: _ => t
  | [] => if s.engine.st = .busy then .engine else .host

/-- One atomic step of the machine: the next agent's turn, its entry of the schedule used up (R52). -/
def stepOnce (s : State) : Outcome := takeTurn s.nextTurn { s with schedule := s.schedule.tail }

end Sys2Proof.Machine
end

