-- ==== Sys2Proof/Machine/Step.lean ====
section
/-! DEFINITION. The step, and how an instruction is placed before it. The engine fetches nothing (20_memory.md R55): a
command reaches it as the host's next write to CMD (log entry 8). -/

namespace Sys2Proof.Machine

/-- One step. -/
def step (s : State) : Host.Outcome State Fault Refusal := stepOnce s

/-- The state whose very next step performs the command word of a table row's bits: the host's next turn comes first,
and its next action is a write of that word to CMD. -/
def State.withFetchWord (s : State) (nbits w : Nat) : State :=
  { s with
    schedule := .host :: s.schedule
    host := .access (Access.writeOf Register.cmd.offset (tableWord nbits w)) :: s.host }

end Sys2Proof.Machine
end

