-- ==== Sys2Proof/Machine/Assembler.lean ====
section
/-! DEFINITION. Host programs in the assembler of 30_encoding.md: statements and their encoding as bus accesses (R68),
pseudo-instructions and their expansions (R69), register operands (R70). The text form stands in
Machine/AssemblerText.lean. -/

namespace Sys2Proof.Machine

/-- A register operand: a register's name, or the raw form `@imm12`, which may name a reserved offset (R70). -/
inductive RegOperand where
  | named (r : Register)
  | raw (off : BitVec 12)
  deriving DecidableEq, Repr

/-- off(reg), or none for a raw offset that is no multiple of 4 (R70). -/
def RegOperand.offset : RegOperand → Option (BitVec 12)
  | .named r => some r.offset
  | .raw off => if off.toNat % 4 = 0 then some off else none

/-- The statements of R68. -/
inductive Statement where
  | nop
  | init
  | absorb (n : Nat)
  | final
  | fail
  /-- CMD imm32: a raw CMD write of any word, legal or not. -/
  | cmd (v : Reg32)
  | wr (r : RegOperand) (v : Reg32)
  | rd (r : RegOperand)
  | poll (r : RegOperand) (mask value : Reg32)
  deriving DecidableEq, Repr

/-- A write of a word to CMD. -/
def cmdAction (v : Reg32) : HostAction := .access (Access.writeOf Register.cmd.offset v)

/-- A statement's encoding as a host's action; none where the assembler rejects it: ABSORB 0, ABSORB 9 or more, a
misaligned raw offset (R68, R70). -/
def Statement.assemble : Statement → Option HostAction
  | .nop => some (cmdAction 0x00000000)
  | .init => some (cmdAction 0x00000001)
  | .absorb n =>
    if 1 ≤ n ∧ n ≤ 8 then some (cmdAction (0x00000002 ||| (BitVec.ofNat 32 (n - 1) <<< 4))) else none
  | .final => some (cmdAction 0x00000003)
  | .fail => some (cmdAction 0x00000004)
  | .cmd v => some (cmdAction v)
  | .wr r v => r.offset.map fun off => .access (Access.writeOf off v)
  | .rd r => r.offset.map fun off => .access (Access.readOf off)
  | .poll r mask value => r.offset.map fun off => .poll off mask value

/-- The pseudo-instructions of R69. -/
inductive Pseudo where
  | absorbw (lo hi : Reg32) (n : Nat)
  /-- CONFIG compat, ie. DESIGN CHOICE: R69 gives the operands no range; each is any 32-bit value (log entry 21). -/
  | config (compat ie : Reg32)
  | waitDone
  | getDigest
  deriving DecidableEq, Repr

/-- A pseudo-instruction's expansion (R69). DESIGN CHOICE: CONFIG's (ie << 1) | compat is computed in 32 bits, so bit 31
of ie is lost (log entry 21). -/
def Pseudo.expand : Pseudo → List Statement
  | .absorbw lo hi n => [.wr (.named .dataLo) lo, .wr (.named .dataHi) hi, .absorb n]
  | .config compat ie => [.wr (.named .cfg) ((ie <<< 1) ||| compat)]
  | .waitDone => [.poll (.named .status) 0x3 0x3]
  | .getDigest => (List.finRange 5).map fun k => .rd (.named (.digest k))

/-- A line of a host program. -/
inductive AsmLine where
  | statement (t : Statement)
  | pseudo (p : Pseudo)
  deriving DecidableEq, Repr

/-- The statements of a line. -/
def AsmLine.statements : AsmLine → List Statement
  | .statement t => [t]
  | .pseudo p => p.expand

/-- A host program as the host's actions; none if the assembler rejects a line. -/
def assemble (p : List AsmLine) : Option (List HostAction) :=
  (p.flatMap AsmLine.statements).mapM Statement.assemble

/-- Give the host a program to perform (log entry 8). -/
def State.withHost (p : List HostAction) (s : State) : State := { s with host := p }

end Sys2Proof.Machine
end

