-- ==== Sys2Proof/Machine/AssemblerText.lean ====
section
/-! DEFINITION. The text of host programs (30_encoding.md R68 to R70): one statement per line, mnemonics in upper case,
`;` starts a comment, numbers decimal or hexadecimal with a 0x prefix. White space around tokens and commas between
operands are read as in the spec's own programs (95_test_vectors.md; log entry 18). -/

namespace Sys2Proof.Machine

/-- White space within a line. -/
def isBlank (c : Char) : Bool := c = ' ' || c = '\t' || c = '\r'

/-- Drop white space at both ends. -/
def trimBlank (l : List Char) : List Char := ((l.dropWhile isBlank).reverse.dropWhile isBlank).reverse

/-- The value of a digit, hexadecimal digits in either case. -/
def digitValue (c : Char) : Option Nat :=
  if '0' ≤ c ∧ c ≤ '9' then some (c.toNat - 48)
  else if 'a' ≤ c ∧ c ≤ 'f' then some (c.toNat - 87)
  else if 'A' ≤ c ∧ c ≤ 'F' then some (c.toNat - 55)
  else none

/-- Add digits of a base to a number already read; none at a character that is no digit of the base. -/
def digitsFrom (base : Nat) : Nat → List Char → Option Nat
  | n, [] => some n
  | n, c :: cs =>
    match digitValue c with
    | some d => if d < base then digitsFrom base (n * base + d) cs else none
    | none => none

/-- A number, decimal or hexadecimal with a 0x prefix, with at least one digit (R68). -/
def parseNumber : List Char → Option Nat
  | '0' :: 'x' :: c :: cs => digitsFrom 16 0 (c :: cs)
  | c :: cs => digitsFrom 10 0 (c :: cs)
  | [] => none

/-- An immediate of `w` bits; a number that does not fit is rejected. -/
def parseImm (w : Nat) (l : List Char) : Option (BitVec w) :=
  match parseNumber l with
  | some n => if n < 2 ^ w then some (BitVec.ofNat w n) else none
  | none => none

/-- A numbered register's name: a prefix and a decimal number without a leading zero, below a bound. -/
def parseIndexed (n : Nat) (l : List Char) : Option (Fin n) :=
  match l with
  | ['0'] => if h : 0 < n then some ⟨0, h⟩ else none
  | '0' :: _ => none
  | c :: cs =>
    match digitsFrom 10 0 (c :: cs) with
    | some k => if h : k < n then some ⟨k, h⟩ else none
    | none => none
  | [] => none

/-- A register's name (R15, R68) or a raw offset `@imm12` (R70). -/
def parseRegister (l : List Char) : Option RegOperand :=
  match l with
  | '@' :: ds => (parseImm 12 ds).map .raw
  | ['I', 'D'] => some (.named .id)
  | ['C', 'F', 'G'] => some (.named .cfg)
  | ['C', 'M', 'D'] => some (.named .cmd)
  | ['S', 'T', 'A', 'T', 'U', 'S'] => some (.named .status)
  | ['D', 'A', 'T', 'A', '_', 'L', 'O'] => some (.named .dataLo)
  | ['D', 'A', 'T', 'A', '_', 'H', 'I'] => some (.named .dataHi)
  | ['L', 'E', 'N', '_', 'L', 'O'] => some (.named .lenLo)
  | ['L', 'E', 'N', '_', 'H', 'I'] => some (.named .lenHi)
  | 'D' :: 'I' :: 'G' :: 'E' :: 'S' :: 'T' :: ds => (parseIndexed 5 ds).map fun k => .named (.digest k)
  | 'A' :: 'C' :: 'C' :: ds => (parseIndexed 40 ds).map fun m => .named (.acc m)
  | _ => none

/-- What a line of text is. -/
inductive ParsedLine where
  | blank
  | line (l : AsmLine)
  | rejected
  deriving DecidableEq, Repr

/-- A parsed line, or a rejected one. -/
def ParsedLine.ofOption : Option AsmLine → ParsedLine
  | some l => .line l
  | none => .rejected

/-- A line's mnemonic and its operands, split at commas (R68, R69). DESIGN CHOICE: the operands of CONFIG, and the mask and
value of POLL, are any 32-bit numbers (log entry 21). -/
def parseWords (mnemonic : List Char) (operands : List (List Char)) : Option AsmLine :=
  match String.ofList mnemonic, operands with
  | "NOP", [] => some (.statement .nop)
  | "INIT", [] => some (.statement .init)
  | "ABSORB", [n] => (parseNumber n).map fun n => .statement (.absorb n)
  | "FINAL", [] => some (.statement .final)
  | "FAIL", [] => some (.statement .fail)
  | "CMD", [v] => (parseImm 32 v).map fun v => .statement (.cmd v)
  | "WR", [r, v] => do
    let r ← parseRegister r
    let v ← parseImm 32 v
    return .statement (.wr r v)
  | "RD", [r] => (parseRegister r).map fun r => .statement (.rd r)
  | "POLL", [r, m, v] => do
    let r ← parseRegister r
    let m ← parseImm 32 m
    let v ← parseImm 32 v
    return .statement (.poll r m v)
  | "ABSORBW", [lo, hi, n] => do
    let lo ← parseImm 32 lo
    let hi ← parseImm 32 hi
    let n ← parseNumber n
    return .pseudo (.absorbw lo hi n)
  | "CONFIG", [c, i] => do
    let c ← parseImm 32 c
    let i ← parseImm 32 i
    return .pseudo (.config c i)
  | "WAIT_DONE", [] => some (.pseudo .waitDone)
  | "GETDIGEST", [] => some (.pseudo .getDigest)
  | _, _ => none

/-- One line of a program: its comment dropped, then a mnemonic and its operands. -/
def parseLine (l : List Char) : ParsedLine :=
  match trimBlank (l.takeWhile (· ≠ ';')) with
  | [] => .blank
  | text =>
    let mnemonic := text.takeWhile fun c => !isBlank c
    let rest := trimBlank (text.drop mnemonic.length)
    let operands := if rest = [] then [] else (rest.splitOnP (· = ',')).map trimBlank
    ParsedLine.ofOption (parseWords mnemonic operands)

/-- The lines of a program; none if a line is rejected. -/
def parseLines : List (List Char) → Option (List AsmLine)
  | [] => some []
  | l :: ls =>
    match parseLine l with
    | .blank => parseLines ls
    | .line a => (parseLines ls).map (a :: ·)
    | .rejected => none

/-- A program's text as the host's actions; none if the assembler rejects it. -/
def assembleText (text : List Char) : Option (List HostAction) :=
  match parseLines (text.splitOnP (· = '\n')) with
  | some p => assemble p
  | none => none

end Sys2Proof.Machine
end

