-- ==== Sys2Proof/WellFormed.lean ====
section
/-! DEFINITION. What is well formed: a command (30_encoding.md R62) and a host's action (20_memory.md R41). An assembler
statement is checked where it is assembled (Machine/Assembler.lean, R68, R70). -/

namespace Sys2Proof

/-- A command is well formed when its count is in 1..8 (R62). The field NM1 has three bits and each of its values is a
count (R64), so every command is: an ill-formed one cannot be written (log entry 9). -/
def Instr.wellFormed : Instr → Bool
  | .nop => true
  | .init => true
  | .absorb nm1 => 1 ≤ nm1.toNat + 1 && nm1.toNat + 1 ≤ 8
  | .final => true
  | .fail => true

/-- A host's action is well formed when the engine accepts its access: 32 bits wide, aligned, all byte lanes (R41). -/
def Machine.HostAction.wellFormed (h : HostAction) : Bool := h.toAccess.accepted

end Sys2Proof
end

