-- ==== Sys2Proof/Safety.lean ====
section
/-! DEFINITION. The terms the statements use: a run of several steps, when a host program is over (R110), what the next
step does on the bus, the legality table (R100), the bytes a sequence of accesses delivers (R109), and the invariant of
the engine's state (R80, R112). -/

namespace Sys2Proof.Machine

/-- `k` steps, ending at the first refusal. -/
def runSteps : Nat → State → Outcome
  | 0, s => .next s
  | k + 1, s =>
    match step s with
    | .next t => runSteps k t
    | .fault r => .fault r
    | .refused r => .refused r

/-- The host program is over: its last statement is performed and no COMPLETE is enabled (R110). -/
abbrev State.over (s : State) : Prop := s.host = [] ∧ s.engine.st ≠ .busy

/-- No reset stands in the schedule. -/
abbrev State.noReset (s : State) : Prop := Turn.reset ∉ s.schedule

/-- The engine accepts every access the host is going to make (R41). -/
abbrev State.hostWellFormed (s : State) : Prop := ∀ h ∈ s.host, h.wellFormed = true

/-- The write the next step performs, if it performs one: its offset and its value. -/
def State.writeNow (s : State) : Option (BitVec 12 × Reg32) :=
  match s.nextTurn, s.host with
  | .host, .access a :: _ =>
    match a.accepted, a.dir with
    | true, .write v => some (a.off, v)
    | _, _ => none
  | _, _ => none

/-- The next step writes `v` to the register. -/
abbrev State.writesNow (s : State) (r : Register) (v : Reg32) : Prop := s.writeNow = some (r.offset, v)

/-- The next step writes the word of a command to CMD. -/
abbrev State.commandsNow (s : State) (i : Instr) : Prop := s.writesNow .cmd (encode i)

/-- The legality table of R100: the state an accepted command leaves, none where it raises SEQUENCE. The last argument
is ERR_LEN. -/
def legality : Instr → RunState → Bool → Option RunState
  | .nop, st, _ => some st
  | .init, .busy, _ => none
  | .init, _, _ => some .absorb
  | .absorb _, .absorb, _ => some .absorb
  | .absorb _, _, _ => none
  | .final, .absorb, false => some .busy
  | .final, _, _ => none
  | .fail, .busy, _ => none
  | .fail, _, _ => some .done

/-- The next step writes the word of a command to CMD, and the command is accepted there (R100). -/
abbrev State.acceptsNow (s : State) (i : Instr) : Prop :=
  s.commandsNow i ∧ legality i s.engine.st s.engine.errLen ≠ none

/-- The next step performs COMPLETE (R105). -/
abbrev State.completesNow (s : State) : Prop := s.nextTurn = .engine ∧ s.engine.st = .busy

/-- The bytes a sequence of accesses hands over by ABSORB, starting from the payload registers' contents `lo`, `hi`;
none where it holds a CMD write that is neither ABSORB nor NOP, an access the engine does not accept, or a POLL
(R109). -/
def deliveredBy (lo hi : Reg32) : List HostAction → Option (List Byte)
  | [] => some []
  | .poll _ _ _ :: _ => none
  | .access a :: rest =>
    if a.accepted then
      match a.dir with
      | .read => deliveredBy lo hi rest
      | .write v =>
        match registerAt a.off with
        | some .dataLo => deliveredBy v hi rest
        | some .dataHi => deliveredBy lo v rest
        | some .cmd =>
          match decode v with
          | .command .nop => deliveredBy lo hi rest
          | .command (.absorb nm1) =>
            (deliveredBy lo hi rest).map fun m => (payloadOf lo hi).take (byteCount nm1) ++ m
          | _ => none
        | _ => deliveredBy lo hi rest
    else none

/-- A write of a command's word to CMD, as the host's action. -/
def writeCommand (i : Instr) : HostAction := .access (Access.writeOf Register.cmd.offset (encode i))

/-- WAIT_DONE as an action: POLL STATUS, 0x3, 0x3 (R69). -/
def waitDone : HostAction := .poll Register.status.offset 0x3 0x3

/-- The error flag of a code (R114). -/
def Engine.flagOf (e : Engine) : ErrorCode → Bool
  | .illegalCmd => e.errCmd
  | .sequence => e.errSeq
  | .lengthOverflow => e.errLen

/-- The invariant of the engine's state: how the flags, the digest and the Accumulator go together in every state a run
reaches (R21, R22, R24, R80, R112). -/
structure Engine.Inv (e : Engine) : Prop where
  /-- FIRST_ERR is 0 exactly while no error flag is set (R23, R24). -/
  firstErr_none : e.firstErr = none ↔ e.errCmd = false ∧ e.errSeq = false ∧ e.errLen = false
  /-- FIRST_ERR names an error whose flag is set (R24). -/
  firstErr_flag : ∀ c, e.firstErr = some c → e.flagOf c = true
  /-- Outside DONE no digest is valid or held, and no source failure is reported (R21, R22, R112). -/
  open_clean : e.st ≠ .done → e.dvalid = false ∧ e.srcerr = false ∧ e.dig = Block.zero
  /-- A run closed by COMPLETE presents the digest of its stream (R105, R112). -/
  done_digest : e.st = .done → e.srcerr = false → e.dvalid = true ∧ e.dig = qxhDigest e.acc e.len
  /-- A run closed by FAIL holds the sentinel and nothing of its stream (R106, R80). -/
  failed_clear : e.srcerr = true → e.acc = Acc.zero ∧ e.len = 0 ∧ e.dig = Block.zero
  /-- In IDLE nothing is absorbed (R80). -/
  idle_clear : e.st = .idle → e.acc = Acc.zero ∧ e.len = 0
  /-- ERR_LEN is set only in an open run, or after the FAIL that closed it: no digest follows it (R96, R117). -/
  overflow_open : e.errLen = true → e.st = .absorb ∨ e.srcerr = true
  /-- The Accumulator is the fold of a stream of LEN bytes (R80). -/
  folded : ∃ m : List Byte, m.length = e.len.toNat ∧ e.acc = fold m

end Sys2Proof.Machine
end

