-- ==== Sys2Proof/Certificates/Slice0/Obligations.lean ====
section
/-! DEFINITION. The statements about the engine, each from the numbered rules of spec/. -/

open Sys2Proof Sys2Proof.Machine

/-! ### Encoding -/

/-- A word decodes to a command exactly when it is that command's encoding: no bit of a word is dropped, and decoding an
encoded command gives it back (30_encoding.md R60 to R62, R64). -/
def Obligations.DecodeAndEncodeAgree : Prop :=
  ∀ (v : Reg32) (i : Instr), decode v = .command i ↔ encode i = v

/-- R64: the decoder is total; exactly 12 words decode to a command, and these are they. -/
def Obligations.ExactlyTwelveWordsDecode : Prop :=
  (∀ (v : Reg32) (i : Instr), decode v = .command i ↔
    (v = 0x00000000 ∧ i = .nop) ∨ (v = 0x00000001 ∧ i = .init) ∨
    (∃ nm1 : BitVec 3, v = 0x00000002 + 0x10 * nm1.setWidth 32 ∧ i = .absorb nm1) ∨
    (v = 0x00000003 ∧ i = .final) ∨ (v = 0x00000004 ∧ i = .fail)) ∧
  (∀ v : Reg32, (∃ i, decode v = .command i) ↔
    v ∈ ([0x00, 0x01, 0x02, 0x12, 0x22, 0x32, 0x42, 0x52, 0x62, 0x72, 0x03, 0x04] : List Reg32)) ∧
  ([0x00, 0x01, 0x02, 0x12, 0x22, 0x32, 0x42, 0x52, 0x62, 0x72, 0x03, 0x04] : List Reg32).Nodup

/-- The words of 95_test_vectors.md DEC1 to DEC17 decode as listed there. -/
def Obligations.ListedWordsDecodeAsListed : Prop :=
  decode 0x00000000 = .command .nop ∧ decode 0x00000001 = .command .init ∧
  decode 0x00000002 = .command (.absorb 0) ∧ decode 0x00000012 = .command (.absorb 1) ∧
  decode 0x00000072 = .command (.absorb 7) ∧ decode 0x00000003 = .command .final ∧
  decode 0x00000004 = .command .fail ∧
  ∀ v ∈ ([0x10, 0x13, 0x14, 0x05, 0x0F, 0x7F, 0x73, 0x80, 0x82, 0x80000002] : List Reg32),
    ∃ r, decode v = .illegal r

/-- R115: a CMD write raises ILLEGAL_CMD exactly for the words of its three cases, in any state, and has no other
effect. -/
def Obligations.IllegalWordsOnlyRecordIllegalCmd : Prop :=
  ∀ v : Reg32,
    ((v.extractLsb' 7 25 ≠ 0 ∨ 5 ≤ (v.extractLsb' 0 4).toNat ∨
        (v.extractLsb' 0 4 ≠ 0x2 ∧ v.extractLsb' 4 3 ≠ 0)) ↔ ∃ r, decode v = .illegal r) ∧
    ((∃ r, decode v = .illegal r) → ∀ s : State, commandWrite v s = .next (s.raise .illegalCmd))

/-! ### Commands -/

/-- R101: NOP has no effect in any state, and a word with OP = 0 and another bit set is no NOP. -/
def Obligations.NopHasNoEffect : Prop :=
  encode .nop = 0x00000000 ∧ (∀ s : State, exec .nop s = .next s) ∧
  ∀ v : Reg32, v.extractLsb' 0 4 = 0 → v ≠ 0 → ∃ r, decode v = .illegal r

/-- R102: INIT opens a run with everything cleared but CFG and the payload; in BUSY it only raises SEQUENCE. -/
def Obligations.InitOpensAFreshRun : Prop :=
  encode .init = 0x00000001 ∧
  (∀ s : State, s.engine.st ≠ .busy →
    exec .init s = .next { s with engine :=
      { s.engine with
        acc := Vector.replicate 20 0, len := 0, dig := Vector.replicate 20 0, dvalid := false, srcerr := false,
        errCmd := false, errSeq := false, errLen := false, firstErr := none, st := .absorb } }) ∧
  ∀ s : State, s.engine.st = .busy → exec .init s = .next (s.raise .sequence)

/-- R76: ABSORB n in state ABSORB XORs payload byte j into accb[(LEN + j) mod 160] and adds n to LEN, writing nothing
else; out of range it raises LENGTH_OVERFLOW, in another state SEQUENCE, and absorbs nothing. -/
def Obligations.AbsorbFoldsThePayload : Prop :=
  ∀ (nm1 : BitVec 3) (s : State), ∀ n, n = nm1.toNat + 1 →
    encode (.absorb nm1) = 0x00000002 ||| (BitVec.ofNat 32 (n - 1) <<< 4) ∧
    (s.engine.st = .absorb → s.engine.len.toNat + n ≤ 2 ^ 64 - 1 →
      ∃ a : Acc, ∃ l : Word64,
        exec (.absorb nm1) s = .next { s with engine := { s.engine with acc := a, len := l } } ∧
        l.toNat = s.engine.len.toNat + n ∧
        ∀ p, p < 160 → accByte a p = (List.range n).foldl
          (fun b j => if (s.engine.len.toNat + j) % 160 = p then
              b ^^^ (if j < 4 then byteAt s.engine.dataLo j else byteAt s.engine.dataHi (j - 4))
            else b)
          (accByte s.engine.acc p)) ∧
    (s.engine.st = .absorb → 2 ^ 64 - 1 < s.engine.len.toNat + n →
      exec (.absorb nm1) s = .next (s.raise .lengthOverflow)) ∧
    (s.engine.st ≠ .absorb → exec (.absorb nm1) s = .next (s.raise .sequence))

/-- R104: FINAL in ABSORB with ERR_LEN = 0 makes the engine BUSY and writes nothing else; otherwise SEQUENCE. -/
def Obligations.FinalMakesTheEngineBusy : Prop :=
  encode .final = 0x00000003 ∧
  (∀ s : State, s.engine.st = .absorb → s.engine.errLen = false →
    exec .final s = .next { s with engine := { s.engine with st := .busy } }) ∧
  (∀ s : State, s.engine.st ≠ .absorb → exec .final s = .next (s.raise .sequence)) ∧
  ∀ s : State, s.engine.st = .absorb → s.engine.errLen = true → exec .final s = .next (s.raise .sequence)

/-- R106: FAIL closes the run with the sentinel, DVALID taking CFG.COMPAT and the error flags kept; a later write of CFG
leaves DVALID as it is; in BUSY FAIL raises SEQUENCE. -/
def Obligations.FailClosesTheRunWithTheSentinel : Prop :=
  encode .fail = 0x00000004 ∧
  (∀ s : State, s.engine.st ≠ .busy →
    exec .fail s = .next { s with engine :=
      { s.engine with
        acc := Vector.replicate 20 0, len := 0, dig := Vector.replicate 20 0, srcerr := true,
        dvalid := s.engine.compat, st := .done } }) ∧
  (∀ (s : State) (v : Reg32), ∃ t, regWrite 0x004 v s = .next t ∧ t.engine.dvalid = s.engine.dvalid) ∧
  ∀ s : State, s.engine.st = .busy → exec .fail s = .next (s.raise .sequence)

/-- COMPLETE writes the digest, DVALID and STATE in one step in BUSY and changes nothing elsewhere (R105). That it is the
next step wherever the schedule puts it, a turn without effect outside BUSY, is the model's schedule and empty turn (log
entries 2 and 3). -/
def Obligations.CompleteWritesTheDigest : Prop :=
  (∀ s : State, s.engine.st = .busy →
    engineTurn s = .next { s with engine :=
      { s.engine with dig := inject (realign s.engine.acc) s.engine.len, dvalid := true, st := .done } }) ∧
  (∀ s t : State, s.engine.st ≠ .busy → engineTurn s = .next t → t.engine = s.engine) ∧
  ∀ (s : State) (us : List Turn), s.schedule = .engine :: us → step s = engineTurn { s with schedule := us }

/-- R100: the table of which command is legal in which state and the state it leaves, and that no step makes another
transition. -/
def Obligations.LegalityTableHoldsAndIsAll : Prop :=
  (∀ (i : Instr) (s : State), ∃ t, exec i s = .next t ∧
    match legality i s.engine.st s.engine.errLen with
    | none => t = s.raise .sequence
    | some st' => t.engine.st = st' ∧ (i ≠ .init → t.engine.errSeq = s.engine.errSeq)) ∧
  (∀ s t : State, step s = .next t → t.engine.st ≠ s.engine.st →
    (s.nextTurn = .reset ∧ t.engine.st = .idle) ∨
    (s.nextTurn = .engine ∧ s.engine.st = .busy ∧ t.engine.st = .done) ∨
    ∃ i, s.commandsNow i ∧ legality i s.engine.st s.engine.errLen = some t.engine.st) ∧
  (∀ s t : State, engineTurn s = .next t →
    (s.engine.st = .busy → t.engine.st = .done) ∧ (s.engine.st ≠ .busy → t.engine = s.engine)) ∧
  ∀ s t : State, resetTurn s = .next t → t.engine.st = .idle

/-- R120: a CMD write raises at most one error, ILLEGAL_CMD before SEQUENCE before LENGTH_OVERFLOW. -/
def Obligations.OneErrorPerCommandInPriorityOrder : Prop :=
  ∀ (v : Reg32) (s : State), ∃ t, commandWrite v s = .next t ∧
    match decode v with
    | .illegal _ => t = s.raise .illegalCmd
    | .command i =>
      (legality i s.engine.st s.engine.errLen = none → t = s.raise .sequence) ∧
      (legality i s.engine.st s.engine.errLen ≠ none →
        (∀ nm1, i = .absorb nm1 → 2 ^ 64 - 1 < s.engine.len.toNat + (nm1.toNat + 1) → t = s.raise .lengthOverflow) ∧
        ((∀ nm1, i = .absorb nm1 → s.engine.len.toNat + (nm1.toNat + 1) ≤ 2 ^ 64 - 1) →
          (t.engine.firstErr = s.engine.firstErr ∧ ∀ c, t.engine.flagOf c = s.engine.flagOf c) ∨
          (i = .init ∧ t.engine.firstErr = none ∧ ∀ c, t.engine.flagOf c = false)))

/-- R113: an error sets its flag, and FIRST_ERR if it is 0, and nothing else; the CMD write that raised it completes
normally on the bus. -/
def Obligations.ErrorsAreRecordedAndNothingElse : Prop :=
  (∀ s : State,
    s.raise .illegalCmd = { s with engine :=
      { s.engine with errCmd := true, firstErr := if s.engine.firstErr = none then some .illegalCmd else s.engine.firstErr } } ∧
    s.raise .sequence = { s with engine :=
      { s.engine with errSeq := true, firstErr := if s.engine.firstErr = none then some .sequence else s.engine.firstErr } } ∧
    s.raise .lengthOverflow = { s with engine :=
      { s.engine with errLen := true, firstErr := if s.engine.firstErr = none then some .lengthOverflow else s.engine.firstErr } }) ∧
  ∀ (s : State) (v : Reg32) (rest : List HostAction),
    s.host = .access (Access.writeOf Register.cmd.offset v) :: rest →
    ∃ e : Engine, hostTurn s = .next { s with engine := e, host := rest, responses := .writeDone :: s.responses }

/-! ### What each command leaves unchanged -/

/-- The frame of every command: the host, the bus, CFG and the payload; for each command, the elements its rule does
not name. An errored command writes its error flag and FIRST_ERR alone. -/
def Obligations.CommandsWriteOnlyTheirElements : Prop :=
  ∀ (i : Instr) (s t : State), exec i s = .next t →
    (t.host = s.host ∧ t.schedule = s.schedule ∧ t.responses = s.responses) ∧
    (t.engine.compat = s.engine.compat ∧ t.engine.ie = s.engine.ie ∧
      t.engine.dataLo = s.engine.dataLo ∧ t.engine.dataHi = s.engine.dataHi) ∧
    (i = .nop → t.engine = s.engine) ∧
    (∀ n, i = .absorb n →
      t.engine.st = s.engine.st ∧ t.engine.dvalid = s.engine.dvalid ∧ t.engine.srcerr = s.engine.srcerr ∧
      t.engine.dig = s.engine.dig ∧ t.engine.errCmd = s.engine.errCmd) ∧
    (i = .final →
      t.engine.acc = s.engine.acc ∧ t.engine.len = s.engine.len ∧ t.engine.dig = s.engine.dig ∧
      t.engine.dvalid = s.engine.dvalid ∧ t.engine.srcerr = s.engine.srcerr ∧
      t.engine.errCmd = s.engine.errCmd ∧ t.engine.errLen = s.engine.errLen) ∧
    (i = .fail → t.engine.errCmd = s.engine.errCmd ∧ t.engine.errLen = s.engine.errLen)

/-- What the register window shows of a command's frame: an error and FINAL change no register but STATUS; ABSORB none
but STATUS, LEN and the ACC registers that hold one of its positions; INIT and FAIL none of ID, CFG, CMD, DATA_LO,
DATA_HI and the reserved offsets. -/
def Obligations.RegistersACommandLeaves : Prop :=
  (∀ (c : ErrorCode) (s : State) (off : BitVec 12), registerAt off ≠ some .status →
    regRead (s.raise c).engine off = regRead s.engine off) ∧
  (∀ (s t : State) (off : BitVec 12), exec .final s = .next t → registerAt off ≠ some .status →
    regRead t.engine off = regRead s.engine off) ∧
  (∀ (nm1 : BitVec 3) (s t : State) (off : BitVec 12), exec (.absorb nm1) s = .next t →
    registerAt off ≠ some .status → registerAt off ≠ some .lenLo → registerAt off ≠ some .lenHi →
    (∀ m, registerAt off = some (.acc m) → ∀ j, j < nm1.toNat + 1 →
      (s.engine.len.toNat + j) % 160 / 4 ≠ m.val) →
    regRead t.engine off = regRead s.engine off) ∧
  (∀ (i : Instr) (s t : State) (off : BitVec 12), exec i s = .next t →
    (registerAt off = none ∨ ∃ r ∈ ([.id, .cfg, .cmd, .dataLo, .dataHi] : List Register), registerAt off = some r) →
    regRead t.engine off = regRead s.engine off)

/-! ### Who writes each element, over every step -/

/-- R21 and R22: DVALID is written by COMPLETE (1), FAIL (CFG.COMPAT), INIT and reset (0), and by nothing else; SRCERR is
set by FAIL, cleared by INIT and reset, and written by nothing else. -/
def Obligations.WritersOfDvalidAndSrcerr : Prop :=
  ∀ s t : State, step s = .next t →
    t.engine.dvalid = (
      if s.nextTurn = .reset then false
      else if s.completesNow then true
      else if s.acceptsNow .init then false
      else if s.acceptsNow .fail then s.engine.compat
      else s.engine.dvalid) ∧
    t.engine.srcerr = (
      if s.nextTurn = .reset then false
      else if s.acceptsNow .init then false
      else if s.acceptsNow .fail then true
      else s.engine.srcerr)

/-- R23: each error flag is set by its error and by nothing else, and once set stays set until INIT or reset clears
it. -/
def Obligations.ErrorFlagsAreSticky : Prop :=
  (∀ (s : State) (c : ErrorCode), (s.raise c).engine.flagOf c = true) ∧
  ∀ (s t : State) (c : ErrorCode), step s = .next t →
    (s.engine.flagOf c = true →
      t.engine.flagOf c = if s.nextTurn = .reset ∨ s.acceptsNow .init then false else true) ∧
    (s.engine.flagOf c = false → t.engine.flagOf c = true → t.engine = s.engine.raise c)

/-- R24: FIRST_ERR holds the code of the first error since the last INIT or reset, which clear it; only an error sets
it. -/
def Obligations.FirstErrKeepsTheFirstError : Prop :=
  (∀ (s : State) (c : ErrorCode), s.engine.firstErr = none → (s.raise c).engine.firstErr = some c) ∧
  (∀ (s t : State), step s = .next t →
    ((s.nextTurn = .reset ∨ s.acceptsNow .init) → t.engine.firstErr = none) ∧
    (∀ c, s.engine.firstErr = some c →
      t.engine.firstErr = if s.nextTurn = .reset ∨ s.acceptsNow .init then none else some c) ∧
    (∀ c, s.engine.firstErr = none → t.engine.firstErr = some c → t.engine = s.engine.raise c)) ∧
  ∀ e : Engine, e.statusWord.extractLsb' 8 2 =
    match e.firstErr with
    | none => 0
    | some .illegalCmd => 1
    | some .sequence => 2
    | some .lengthOverflow => 3

/-- R26: DATA_LO and DATA_HI hold the payload lanes, read back as last written, and only host writes and reset change
them. -/
def Obligations.PayloadRegistersKeepTheirValue : Prop :=
  (∀ s t : State, step s = .next t →
    t.engine.dataLo = (if s.nextTurn = .reset then 0 else
      match s.writeNow with
      | some (off, v) => if off = 0x010 then v else s.engine.dataLo
      | none => s.engine.dataLo) ∧
    t.engine.dataHi = (if s.nextTurn = .reset then 0 else
      match s.writeNow with
      | some (off, v) => if off = 0x014 then v else s.engine.dataHi
      | none => s.engine.dataHi)) ∧
  (∀ e : Engine, regRead e 0x010 = e.dataLo ∧ regRead e 0x014 = e.dataHi) ∧
  ∀ (e : Engine) (j : Nat), j < 8 →
    e.payload.getD j 0 = if j < 4 then byteAt e.dataLo j else byteAt e.dataHi (j - 4)

/-- R32: LEN is cleared by INIT, FAIL and reset, grows by n at an accepted ABSORB n that fits, never wraps, and is
written by nothing else. -/
def Obligations.WritersOfLenAndNoWrap : Prop :=
  ∀ s t : State, step s = .next t →
    ((s.nextTurn = .reset ∨ s.acceptsNow .init ∨ s.acceptsNow .fail) → t.engine.len = 0) ∧
    (∀ nm1, s.acceptsNow (.absorb nm1) → s.engine.len.toNat + (nm1.toNat + 1) ≤ 2 ^ 64 - 1 →
      t.engine.len.toNat = s.engine.len.toNat + (nm1.toNat + 1)) ∧
    ((¬ (s.nextTurn = .reset ∨ s.acceptsNow .init ∨ s.acceptsNow .fail) ∧
      ∀ nm1, s.acceptsNow (.absorb nm1) → 2 ^ 64 - 1 < s.engine.len.toNat + (nm1.toNat + 1)) →
      t.engine.len = s.engine.len)

/-- The writers of ACC: an accepted ABSORB; INIT, FAIL and reset clear it; COMPLETE and everything else leave it
(R31). -/
def Obligations.WritersOfTheAccumulator : Prop :=
  ∀ s t : State, step s = .next t →
    ((s.nextTurn = .reset ∨ s.acceptsNow .init ∨ s.acceptsNow .fail) → t.engine.acc = Vector.replicate 20 0) ∧
    (t.engine.acc ≠ s.engine.acc →
      s.nextTurn = .reset ∨ s.acceptsNow .init ∨ s.acceptsNow .fail ∨
      ∃ nm1, s.acceptsNow (.absorb nm1) ∧ s.engine.len.toNat + (nm1.toNat + 1) ≤ 2 ^ 64 - 1)

/-- R33: DIG is written by COMPLETE (the digest), and by FAIL, INIT and reset (20 zero bytes), and by nothing else; it is
read only through DIGEST0..4. -/
def Obligations.WritersOfDig : Prop :=
  (∀ s t : State, step s = .next t →
    t.engine.dig =
      if s.nextTurn = .reset then Vector.replicate 20 0
      else if s.completesNow then qxhDigest s.engine.acc s.engine.len
      else if s.acceptsNow .init then Vector.replicate 20 0
      else if s.acceptsNow .fail then Vector.replicate 20 0
      else s.engine.dig) ∧
  ∀ (e : Engine) (d : Block) (off : BitVec 12), (∀ k, registerAt off ≠ some (.digest k)) →
    regRead { e with dig := d } off = regRead e off

/-- CFG is written by a host's write to it and by reset only (R17, R37). -/
def Obligations.WritersOfCfg : Prop :=
  ∀ s t : State, step s = .next t →
    (t.engine.compat, t.engine.ie) =
      if s.nextTurn = .reset then (false, false)
      else match s.writeNow with
        | some (off, v) => if off = 0x004 then (v.getLsbD 0, v.getLsbD 1) else (s.engine.compat, s.engine.ie)
        | none => (s.engine.compat, s.engine.ie)

/-- While ERR_LEN is set in an open run, the run stays open, with its flag, until INIT, FAIL or
reset: no COMPLETE can follow (R117). -/
def Obligations.OverflowedRunClosesOnlyByInitFailOrReset : Prop :=
  ∀ s t : State, step s = .next t → s.engine.st = .absorb → s.engine.errLen = true →
    s.nextTurn = .reset ∨ s.acceptsNow .init ∨ s.acceptsNow .fail ∨
    (t.engine.st = .absorb ∧ t.engine.errLen = true)

/-! ### Registers -/

/-- R16 and R18: ID holds its constant in every state and ignores a write; CMD holds no state: a read of it answers 0 and
does nothing else, and a write of a word performs the command of that word. -/
def Obligations.IdIsConstantAndCmdIsAPort : Prop :=
  (∀ e : Engine, regRead e 0x000 = 0x51584801 ∧ (regRead e 0x000).extractLsb' 8 24 = 0x515848 ∧
    (regRead e 0x000).extractLsb' 0 8 = 0x01) ∧
  (∀ (s : State) (v : Reg32), regWrite 0x000 v s = .next s) ∧
  (∀ s : State, performAccess (Access.readOf 0x008) s = .next (s.respond (.readData 0))) ∧
  ∀ (s : State) (v : Reg32) (i : Instr), decode v = .command i → regWrite 0x008 v s = exec i s

/-- R17: CFG keeps bits 0 and 1 of the value written, reads them back, and changes no other state. -/
def Obligations.CfgKeepsItsTwoFields : Prop :=
  regRead State.reset.engine 0x004 = 0x00000000 ∧ ∀ (s : State) (v : Reg32), ∃ t : State, regWrite 0x004 v s = .next t ∧
    t = { s with engine := { s.engine with compat := v.getLsbD 0, ie := v.getLsbD 1 } } ∧
    regRead t.engine 0x004 = v &&& 0x3

/-- R19, R25 and R36: the fields of STATUS, their reset value, that a write to it is ignored; its IRQ bit is a copy of
the interrupt output, the level IE and (STATE = DONE or an error flag). -/
def Obligations.StatusWordAndInterruptLevel : Prop :=
  (∀ e : Engine, ∀ v, v = regRead e 0x00C →
    v.extractLsb' 0 2 = (match e.st with | .idle => 0 | .absorb => 1 | .busy => 2 | .done => 3) ∧
    v.getLsbD 2 = e.dvalid ∧ v.getLsbD 3 = e.srcerr ∧ v.getLsbD 4 = e.errCmd ∧ v.getLsbD 5 = e.errSeq ∧
    v.getLsbD 6 = e.errLen ∧ v.getLsbD 7 = e.irq ∧
    v.extractLsb' 8 2 = (match e.firstErr with
      | none => 0 | some .illegalCmd => 1 | some .sequence => 2 | some .lengthOverflow => 3) ∧
    v.extractLsb' 10 22 = 0) ∧
  (∀ e : Engine,
    e.irq = true ↔ e.ie = true ∧ (e.st = .done ∨ e.errCmd = true ∨ e.errSeq = true ∨ e.errLen = true)) ∧
  regRead State.reset.engine 0x00C = 0x00000000 ∧
  ∀ (s : State) (v : Reg32), regWrite 0x00C v s = .next s

/-- irq, once raised, stays until INIT, a write of CFG with IE = 0, or reset removes its condition (R141, R124; reset by
R37). -/
def Obligations.IrqHoldsUntilItsConditionIsRemoved : Prop :=
  ∀ s t : State, step s = .next t → s.engine.irq = true →
    t.engine.irq = true ∨ s.nextTurn = .reset ∨ s.acceptsNow .init ∨
    ∃ v, s.writesNow .cfg v ∧ v.getLsbD 1 = false

/-- LEN_LO and LEN_HI read the halves of LEN (R27). -/
def Obligations.LenReadsInHalves : Prop :=
  ∀ e : Engine, regRead e 0x01C ++ regRead e 0x018 = (e.len : BitVec (32 + 32)) ∧
    regRead e 0x018 = e.len.extractLsb' 0 32 ∧ regRead e 0x01C = e.len.extractLsb' 32 32

/-- R28: DIGESTk reads digest bytes 4k..4k+3, lane j being byte 4k+j, if DVALID = 1, and 0 otherwise. -/
def Obligations.DigestWindowReads : Prop :=
  ∀ (e : Engine) (k : Nat), k < 5 →
    (e.dvalid = true → ∀ j, j < 4 → byteAt (regRead e (BitVec.ofNat 12 (0x020 + 4 * k))) j = entry e.dig (4 * k + j)) ∧
    (e.dvalid = false → regRead e (BitVec.ofNat 12 (0x020 + 4 * k)) = 0)

/-- R29: ACCm reads accumulator bytes 4m..4m+3, half of a word of ACC, in every state. -/
def Obligations.AccWindowReads : Prop :=
  ∀ (e : Engine) (m : Nat), m < 40 →
    (∀ j, j < 4 → byteAt (regRead e (BitVec.ofNat 12 (0x100 + 4 * m))) j = accByte e.acc (4 * m + j)) ∧
    regRead e (BitVec.ofNat 12 (0x100 + 4 * m)) = (entry e.acc (m / 2)).extractLsb' (32 * (m % 2)) 32

/-- R30: the aligned offsets with no register are the two reserved ranges; there a read answers 0, a write is ignored,
and neither has any effect. -/
def Obligations.ReservedOffsetsReadZeroIgnoreWrites : Prop :=
  ∀ off : BitVec 12, off.toNat % 4 = 0 →
    (registerAt off = none ↔
      (0x034 ≤ off.toNat ∧ off.toNat ≤ 0x0FC) ∨ (0x1A0 ≤ off.toNat ∧ off.toNat ≤ 0xFFC)) ∧
    (registerAt off = none → ∀ s : State,
      performAccess (Access.readOf off) s = .next (s.respond (.readData 0)) ∧
      ∀ v : Reg32, performAccess (Access.writeOf off v) s = .next (s.respond .writeDone))

/-- R108: a write at CMD performs R99, at CFG or a payload register stores, anywhere else is ignored; a sub-word or
misaligned write raises BusError. -/
def Obligations.RegisterWritesDoOneThing : Prop :=
  ∀ (s : State) (v : Reg32),
    regWrite 0x008 v s = (match decode v with
      | .command i => exec i s
      | .illegal _ => .next (s.raise .illegalCmd)) ∧
    regWrite 0x004 v s = .next { s with engine := { s.engine with compat := v.getLsbD 0, ie := v.getLsbD 1 } } ∧
    regWrite 0x010 v s = .next { s with engine := { s.engine with dataLo := v } } ∧
    regWrite 0x014 v s = .next { s with engine := { s.engine with dataHi := v } } ∧
    (∀ off : BitVec 12, off.toNat % 4 = 0 → off ≠ 0x004 → off ≠ 0x008 → off ≠ 0x010 → off ≠ 0x014 →
      regWrite off v s = .next s) ∧
    (∀ off : BitVec 12, off.toNat % 4 = 0 →
      performAccess (Access.writeOf off v) s = regWrite off v (s.respond .writeDone)) ∧
    ∀ a : Access, a.dir = .write v → a.bits ≠ 32 ∨ a.off.toNat % 4 ≠ 0 → performAccess a s = .refused .busError

/-- A read of any register changes no state of the engine, so that two reads with no write and no COMPLETE between them
give the same value (R48). That a POLL makes one read in a host turn and stays at the head of the host's actions until
(read & mask) = value is the model's choice (log entry 17). -/
def Obligations.ReadsHaveNoSideEffect : Prop :=
  ∀ (s : State) (off : BitVec 12) (rest : List HostAction), off.toNat % 4 = 0 →
    (s.host = .access (Access.readOf off) :: rest →
      ∃ t, hostTurn s = .next t ∧ t.engine = s.engine ∧ t.host = rest ∧
        t.responses = .readData (regRead s.engine off) :: s.responses) ∧
    (∀ mask value, s.host = .poll off mask value :: rest →
      ∃ t, hostTurn s = .next t ∧ t.engine = s.engine ∧
        t.host = (if regRead s.engine off &&& mask = value then rest else s.host) ∧
        t.responses = .readData (regRead s.engine off) :: s.responses)

/-! ### The bus -/

/-- An access that is not 32 bits wide, aligned and with all lanes is refused as a BusError, and only such an access is
(R41, R42, R119). That a read, too, needs its lanes is the model's reading of R41 (log entry 5), and that the model stops
there is log entry 4. -/
def Obligations.BusErrorExactlyForUnacceptedAccesses : Prop :=
  ∀ (s : State) (a : Access) (rest : List HostAction), s.host = .access a :: rest →
    (hostTurn s = .refused .busError ↔ a.bits ≠ 32 ∨ a.off.toNat % 4 ≠ 0 ∨ a.lanes ≠ 0xF)

/-- No step faults, and the one refusal is a BusError at the host's turn: every accepted access and every command, in
every state, has a next state (R107, R122, R42). -/
def Obligations.OnlyABusErrorStopsTheMachine : Prop :=
  ∀ s : State, (∃ t, step s = .next t) ∨
    (step s = .refused .busError ∧ s.nextTurn = .host ∧ ∃ a rest, s.host = a :: rest ∧ a.wellFormed = false)

/-- A step runs the decoded command: when the host's next action writes to CMD a word that decodes to a command, the step
is that command's meaning, after the action and its turn are used up and the write is answered (R99, R14). -/
def Obligations.StepRunsTheDecodedCommand : Prop :=
  ∀ (s : State) (v : Reg32) (i : Instr) (rest : List HostAction),
    s.nextTurn = .host → s.host = .access (Access.writeOf Register.cmd.offset v) :: rest → decode v = .command i →
    step s = exec i { s with
      host := rest, schedule := s.schedule.tail, responses := .writeDone :: s.responses }

/-- The address QXH_BASE + off reaches offset off and QXH_BASE is 4096-byte aligned, whatever the platform's base;
no address outside the window reaches an offset (R40). -/
def Obligations.WindowAddressesReachTheirOffsets : Prop :=
  Config.qxhBase % 4096 = 0 ∧
  (∀ off : BitVec 12, windowOffset (busAddress off) = some off) ∧
  ∀ (a : Nat) (off : BitVec 12), windowOffset a = some off → a = busAddress off

/-! ### Completion, ordering, reset -/

/-- Every interleaving is a run of the model: whatever agent the schedule names moves next (R52, R132). The schedule is
the model's field (log entries 1 and 2), and that a reset keeps the host's actions is log entry 19. -/
def Obligations.AnyAgentMayMoveNext : Prop :=
  ∀ (s : State) (us : List Turn),
    (s.schedule = .host :: us → step s = hostTurn { s with schedule := us }) ∧
    (s.schedule = .engine :: us → step s = .next { s with engine := s.engine.complete, schedule := us }) ∧
    (s.schedule = .reset :: us → step s = .next { s with engine := Engine.reset, schedule := us })

/-- A command written while COMPLETE is pending is judged against BUSY if it comes before COMPLETE and against DONE
if after. Shown for the two orders of one COMPLETE and one command (R121, R137). -/
def Obligations.CommandsRaceWithComplete : Prop :=
  ∀ (s : State) (i : Instr) (us : List Turn) (rest : List HostAction),
    s.engine.st = .busy → s.host = writeCommand i :: rest →
    (s.schedule = .host :: .engine :: us → ∃ t u, step s = .next t ∧ step t = .next u ∧
      (i ≠ .nop → u.engine = (s.engine.raise .sequence).complete) ∧ u.engine.st = .done) ∧
    (s.schedule = .engine :: .host :: us → ∃ t, step s = .next t ∧ t.engine = s.engine.complete ∧
      t.engine.st = .done ∧
      step t = exec i { t with host := rest, schedule := us, responses := .writeDone :: s.responses })

/-- R37 and R133: the value of every state element after reset and of every register; a reset from any state, BUSY or
DONE too, leaves exactly these: no COMPLETE is pending, no digest is kept, no state survives. -/
def Obligations.ResetLeavesTheSpecsValues : Prop :=
  (∀ s : State, ∃ t, resetTurn s = .next t ∧ t.engine = State.reset.engine) ∧
  (∀ (s : State) (us : List Turn), s.schedule = .reset :: us → ∃ t, step s = .next t ∧ t.engine = State.reset.engine) ∧
  State.reset.engine =
    { acc := Vector.replicate 20 0, len := 0, dig := Vector.replicate 20 0, st := .idle,
      dvalid := false, srcerr := false, errCmd := false, errSeq := false, errLen := false, firstErr := none,
      compat := false, ie := false, dataLo := 0x00000000, dataHi := 0x00000000 } ∧
  State.reset.engine.irq = false ∧
  ∀ off : BitVec 12, off.toNat % 4 = 0 →
    regRead State.reset.engine off = if off = 0x000 then 0x51584801 else 0x00000000

/-- In BUSY, with no reset in the schedule and no access the engine refuses, COMPLETE happens after
at most one step more than the schedule holds. The default turn after the schedule is the model's (R143, log entry 2). -/
def Obligations.BusyEventuallyCompletes : Prop :=
  ∀ s : State, s.engine.st = .busy → s.noReset → s.hostWellFormed →
    ∃ k t, k ≤ s.schedule.length + 1 ∧ runSteps k s = .next t ∧ t.engine.st = .done ∧ t.engine.dvalid = true ∧
      t.engine.dig = qxhDigest s.engine.acc s.engine.len

/-! ### The hash -/

/-- R75: byte i of FOLD(M) is the XOR of the bytes M[k] with k mod 160 = i. -/
def Obligations.FoldByteForm : Prop :=
  ∀ (m : List Byte) (i : Nat), i < 160 →
    accByte (fold m) i =
      (List.range m.length).foldl (fun b k => if k % 160 = i then b ^^^ m.getD k 0 else b) 0

/-- The source's step-by-step algorithm, with its tail, computes the contract's FOLD; a multiple of 160 bytes has no tail
block; the empty message folds to zero (R72 to R74; 90_conflicts.md C3). -/
def Obligations.FoldAlgorithmMeetsItsContract : Prop :=
  (∀ m : List Byte, foldBySteps m = fold m) ∧
  (∀ m : List Byte, m.length % 160 = 0 → tailWords m = 0) ∧
  fold [] = Vector.replicate 20 0

/-- R77: after an accepted INIT and any sequence of accesses that delivers M by ABSORB, ACC is FOLD(M) and LEN is |M|,
however M was split. The schedule gives the host its turns, so no default turn is used. -/
def Obligations.SegmentationIndependence : Prop :=
  ∀ (s : State) (body : List HostAction) (m : List Byte),
    s.engine.st ≠ .busy → s.schedule = List.replicate (body.length + 1) .host → s.host = writeCommand .init :: body →
    deliveredBy s.engine.dataLo s.engine.dataHi body = some m → m.length ≤ 2 ^ 64 - 1 →
    ∃ t, runSteps (body.length + 1) s = .next t ∧ t.host = [] ∧ t.engine.st = .absorb ∧
      t.engine.acc = fold m ∧ (∀ i, i < 160 → accByte t.engine.acc i = foldByte m i) ∧ t.engine.len.toNat = m.length

/-- R83 and R84: the placement is a bijection of 0..159 onto the slots, with inverse i = 131 (8a + s) mod 160, and Shift
Group s holds accb[(131 (8a + s)) mod 160] at offset a. -/
def Obligations.PlacementFillsTheShiftGroups : Prop :=
  (∀ i, i < 160 → shiftOf i < 8 ∧ alignIndex i < 20 ∧ 131 * (8 * alignIndex i + shiftOf i) % 160 = i) ∧
  (∀ s, s < 8 → ∀ a, a < 20 →
    131 * (8 * a + s) % 160 < 160 ∧ shiftOf (131 * (8 * a + s) % 160) = s ∧
    alignIndex (131 * (8 * a + s) % 160) = a) ∧
  ∀ (x : Acc) (s a : Nat), s < 8 → a < 20 →
    entry ((shiftGroups x)[s]?.getD Block.zero) a = accByte x (131 * (8 * a + s) % 160)

/-- R85: Shift Group s is left-rotated by s bits, byte by byte with the carry of byte 19 into byte 0, which is the
rotation of its little-endian 160-bit integer. -/
def Obligations.RotationIsOfTheLittleEndianBitString : Prop :=
  ∀ s : Nat, 1 ≤ s → s ≤ 7 →
    (∀ gs : Vector Block 8, rotatedGroup gs s = rotlBytes (gs[s]?.getD Block.zero) s) ∧
    ∀ g : Block,
      (∀ j, j < 20 → entry (rotlBytes g s) j = (entry g j <<< s) ||| (entry g ((j + 19) % 20) >>> (8 - s))) ∧
      rotlBytes g s = bytes20 (rotl160 (int160 g) s)

/-- R89: the closed form of REALIGN, where bit b of byte i lands, and the closed form over a message. -/
def Obligations.RealignClosedForm : Prop :=
  (∀ x : Acc, realign x = reverseBlock (bytes20
    ((List.range 160).foldl (fun v i => v ^^^ rotl160 ((accByte x i).setWidth 160) (11 * i % 160)) 0))) ∧
  (∀ (c : Byte) (i b : Nat), i < 160 → b < 8 →
    (rotl160 (c.setWidth 160) (11 * i % 160)).getLsbD ((11 * i + b) % 160) = c.getLsbD b) ∧
  ∀ m : List Byte, skewedSum (fold m) =
    (List.range m.length).foldl (fun v k => v ^^^ rotl160 ((m.getD k 0).setWidth 160) (11 * k % 160)) 0

/-- REALIGN is linear over XOR and maps zero to zero (R90). -/
def Obligations.RealignIsLinear : Prop :=
  (∀ x y : Acc, realign (accXor x y) = blockXor (realign x) (realign y)) ∧
  realign (Vector.replicate 20 0) = Vector.replicate 20 0

/-- R95: for a fixed block, different lengths give different digests; and appending a suffix can leave the digest of a
message unchanged (95_test_vectors.md V10, 90_conflicts.md C4). -/
def Obligations.InjectIsInjectiveInTheLength : Prop :=
  (∀ (x : Block) (l1 l2 : Word64), l1 ≠ l2 → inject x l1 ≠ inject x l2) ∧
  qxh ([] ++ (List.replicate 72 0x00 ++ [0xa0] ++ List.replicate 87 0x00)) = qxh []

/-- R93: the bytes of the digest. -/
def Obligations.InjectXorsTheLengthIntoBytesZeroToSeven : Prop :=
  ∀ (x : Block) (l : Word64) (j : Nat),
    (j < 8 → entry (inject x l) j = entry x j ^^^ l.extractLsb' (8 * j) 8) ∧
    (8 ≤ j → j < 20 → entry (inject x l) j = entry x j)

/-- R97: QXH composes the stages, and its closed form over the message. -/
def Obligations.DigestClosedForm : Prop :=
  ∀ m : List Byte, m.length ≤ 2 ^ 64 - 1 →
    qxh m = inject (realign (fold m)) (BitVec.ofNat 64 m.length) ∧
    ∀ v, v = (List.range m.length).foldl
        (fun v k => v ^^^ rotl160 ((m.getD k 0).setWidth 160) (11 * k % 160)) (0 : BitVec 160) →
      ∀ j, j < 20 → entry (qxh m) j =
        entry (bytes20 v) (19 - j) ^^^ (if j < 8 then byteAt (BitVec.ofNat 64 m.length) j else 0)

/-! ### Runs -/

/-- The delivery theorem of R109: an accepted INIT, any accesses that deliver M by ABSORB, FINAL and WAIT_DONE, with
COMPLETE falling anywhere, end with the digest of M in the DIGEST registers. That the wait ends rests on the model's
default turn after the schedule (log entry 2). -/
def Obligations.DeliveryOfTheDigest : Prop :=
  ∀ (s : State) (body : List HostAction) (m : List Byte),
    s.engine.st ≠ .busy → s.noReset → s.host = writeCommand .init :: (body ++ [writeCommand .final, waitDone]) →
    deliveredBy s.engine.dataLo s.engine.dataHi body = some m → m.length ≤ 2 ^ 64 - 1 →
    ∃ k t, runSteps k s = .next t ∧ t.over ∧ t.engine.st = .done ∧
      t.engine.dvalid = true ∧ t.engine.srcerr = false ∧
      t.engine.len.toNat = m.length ∧ t.engine.acc = fold m ∧
      ∀ q j, q < 5 → j < 4 → byteAt (regRead t.engine (BitVec.ofNat 12 (0x020 + 4 * q))) j = entry (qxh m) (4 * q + j)

/-- Nothing carries from one run to the next but CFG and the payload registers: two engines that agree on those are the
same engine after an accepted INIT (R103). -/
def Obligations.InitForgetsThePreviousRun : Prop :=
  ∀ s1 s2 t1 t2 : State,
    s1.engine.st ≠ .busy → s2.engine.st ≠ .busy →
    s1.engine.compat = s2.engine.compat → s1.engine.ie = s2.engine.ie →
    s1.engine.dataLo = s2.engine.dataLo → s1.engine.dataHi = s2.engine.dataHi →
    exec .init s1 = .next t1 → exec .init s2 = .next t2 → t1.engine = t2.engine

/-- Payload bytes n..7 are ignored by ABSORB n (R63, R138): two engines that agree on everything but those bytes absorb
alike. -/
def Obligations.PayloadBytesBeyondTheCountAreIgnored : Prop :=
  ∀ (nm1 : BitVec 3) (s1 s2 t1 t2 : State),
    s2.engine = { s1.engine with dataLo := s2.engine.dataLo, dataHi := s2.engine.dataHi } →
    (∀ j, j < nm1.toNat + 1 → s1.engine.payload.getD j 0 = s2.engine.payload.getD j 0) →
    exec (.absorb nm1) s1 = .next t1 → exec (.absorb nm1) s2 = .next t2 →
    t2.engine = { t1.engine with dataLo := s2.engine.dataLo, dataHi := s2.engine.dataHi }

/-- The invariant holds at reset. -/
def Obligations.InvariantHoldsAtReset : Prop := State.reset.engine.Inv

/-- Every step keeps the invariant: the Accumulator is the fold of a stream of LEN bytes (R80), a digest is valid only
after COMPLETE or a compatible FAIL (R112), and the flags agree with FIRST_ERR (R24). -/
def Obligations.EveryStepKeepsTheInvariant : Prop :=
  ∀ s t : State, s.engine.Inv → step s = .next t → t.engine.Inv

/-- R112: a step leaves DVALID = 1 exactly if it is a COMPLETE, with DIG the digest of the stream, or a FAIL in compatible
mode, with DIG the sentinel, or if DVALID was 1 and the step is no reset, INIT or FAIL; otherwise DIGESTk reads 0. -/
def Obligations.NoPartialDigestIsPresented : Prop :=
  (∀ s t : State, s.engine.Inv → step s = .next t →
    (t.engine.dvalid = true ↔
      s.completesNow ∨ (s.acceptsNow .fail ∧ s.engine.compat = true) ∨
      (s.engine.dvalid = true ∧ s.nextTurn ≠ .reset ∧ ¬ s.acceptsNow .init ∧ ¬ s.acceptsNow .fail)) ∧
    (s.completesNow → ∃ m : List Byte,
      m.length = s.engine.len.toNat ∧ s.engine.acc = fold m ∧ t.engine.dig = qxh m) ∧
    (s.acceptsNow .fail → t.engine.dig = Vector.replicate 20 0) ∧
    (s.engine.dvalid = true → s.nextTurn ≠ .reset → ¬ s.acceptsNow .init → ¬ s.acceptsNow .fail →
      t.engine.dig = s.engine.dig)) ∧
  ∀ e : Engine, e.dvalid = false → ∀ k, k < 5 → regRead e (BitVec.ofNat 12 (0x020 + 4 * k)) = 0

/-- The assembler's nine statements are the accesses of R68, with the register offsets of R70, and it rejects ABSORB 0,
ABSORB 9 or more and a raw offset that is no multiple of 4. That POLL is one action of the host is log entry 17. -/
def Obligations.AssemblerEncodesItsStatements : Prop :=
  (Statement.assemble .nop = some (writeCommand .nop) ∧ Statement.assemble .init = some (writeCommand .init) ∧
    Statement.assemble .final = some (writeCommand .final) ∧ Statement.assemble .fail = some (writeCommand .fail)) ∧
  (∀ nm1 : BitVec 3, Statement.assemble (.absorb (nm1.toNat + 1)) = some (writeCommand (.absorb nm1))) ∧
  (∀ n, n = 0 ∨ 9 ≤ n → Statement.assemble (.absorb n) = none) ∧
  (∀ v : Reg32, Statement.assemble (.cmd v) = some (.access (Access.writeOf 0x008 v))) ∧
  (∀ (r : Register) (v mask value : Reg32),
    Statement.assemble (.wr (.named r) v) = some (.access (Access.writeOf r.offset v)) ∧
    Statement.assemble (.rd (.named r)) = some (.access (Access.readOf r.offset)) ∧
    Statement.assemble (.poll (.named r) mask value) = some (.poll r.offset mask value)) ∧
  (∀ (off : BitVec 12) (v mask value : Reg32), (off.toNat % 4 = 0 →
      Statement.assemble (.wr (.raw off) v) = some (.access (Access.writeOf off v)) ∧
      Statement.assemble (.rd (.raw off)) = some (.access (Access.readOf off)) ∧
      Statement.assemble (.poll (.raw off) mask value) = some (.poll off mask value)) ∧
    (off.toNat % 4 ≠ 0 →
      Statement.assemble (.wr (.raw off) v) = none ∧ Statement.assemble (.rd (.raw off)) = none ∧
      Statement.assemble (.poll (.raw off) mask value) = none)) ∧
  (Register.id.offset = 0x000 ∧ Register.cfg.offset = 0x004 ∧ Register.cmd.offset = 0x008 ∧
    Register.status.offset = 0x00C ∧ Register.dataLo.offset = 0x010 ∧ Register.dataHi.offset = 0x014 ∧
    Register.lenLo.offset = 0x018 ∧ Register.lenHi.offset = 0x01C) ∧
  (∀ k : Fin 5, (Register.digest k).offset.toNat = 0x020 + 4 * k.val) ∧
  ∀ m : Fin 40, (Register.acc m).offset.toNat = 0x100 + 4 * m.val

/-- The pseudo-instructions expand to the accesses of R69, and a program is the accesses of its lines in order, rejected if
a line is. CONFIG of two bits sets COMPAT and IE to them; that its operands may be any 32-bit values, with
(ie << 1) | compat computed in 32 bits, is the model's choice (log entry 21). -/
def Obligations.PseudoInstructionsExpandToTheirAccesses : Prop :=
  (∀ (lo hi : Reg32) (nm1 : BitVec 3), assemble [.pseudo (.absorbw lo hi (nm1.toNat + 1))] =
    some [.access (Access.writeOf 0x010 lo), .access (Access.writeOf 0x014 hi), writeCommand (.absorb nm1)]) ∧
  (∀ (lo hi : Reg32) (n : Nat), n = 0 ∨ 9 ≤ n → assemble [.pseudo (.absorbw lo hi n)] = none) ∧
  (∀ compat ie : Reg32, assemble [.pseudo (.config compat ie)] =
    some [.access (Access.writeOf 0x004 ((ie <<< 1) ||| compat))]) ∧
  (∀ (compat ie : Bool) (s : State),
    regWrite 0x004 (((bit ie).setWidth 32 <<< 1) ||| (bit compat).setWidth 32) s =
      .next { s with engine := { s.engine with compat := compat, ie := ie } }) ∧
  assemble [.pseudo .waitDone] = some [.poll 0x00C 0x3 0x3] ∧
  assemble [.pseudo .getDigest] =
    some (([0x020, 0x024, 0x028, 0x02C, 0x030] : List (BitVec 12)).map fun off => .access (Access.readOf off)) ∧
  (∀ (p q : List AsmLine) (a b : List HostAction), assemble p = some a → assemble q = some b →
    assemble (p ++ q) = some (a ++ b)) ∧
  ∀ p q : List AsmLine, assemble p = none ∨ assemble q = none → assemble (p ++ q) = none
end

