-- ==== Sys2Proof/Laws/Ops.lean ====
section
/-! SUPPORT. What the byte views and the byte orders do: one lemma per operation, bit by bit or byte by byte. -/

namespace Sys2Proof

@[simp] theorem getLsbD_byteAt {w : Nat} (v : BitVec w) (j k : Nat) :
    (byteAt v j).getLsbD k = (decide (k < 8) && v.getLsbD (8 * j + k)) := by
  simp [byteAt]

@[simp] theorem getElem_byteAt {w : Nat} (v : BitVec w) (j k : Nat) (h : k < 8) :
    (byteAt v j)[k] = v.getLsbD (8 * j + k) := by
  simp [byteAt]

/-- The bits of a little-endian packing: bit k is bit k mod 8 of byte k div 8. -/
theorem getLsbD_packLE (w : Nat) (bs : List Byte) (k : Nat) :
    (packLE w bs).getLsbD k = (decide (k < w) && (bs.getD (k / 8) 0).getLsbD (k % 8)) := by
  induction bs generalizing k with
  | nil => simp [packLE]
  | cons b bs ih =>
    simp only [packLE, BitVec.getLsbD_or, BitVec.getLsbD_setWidth, BitVec.getLsbD_shiftLeft, ih]
    by_cases hk : k < w
    · by_cases h8 : k < 8
      · simp [hk, h8, Nat.div_eq_of_lt h8, Nat.mod_eq_of_lt h8]
      · obtain ⟨m, rfl⟩ : ∃ m, k = m + 8 := ⟨k - 8, by omega⟩
        have h1 : b.getLsbD (m + 8) = false := BitVec.getLsbD_of_ge _ _ (by omega)
        have h2 : m < w := by omega
        simp [hk, h2]
    · simp [hk]

/-- Byte j of a little-endian packing that is wide enough is byte j of the list. -/
theorem byteAt_packLE (w : Nat) (bs : List Byte) (j : Nat) (h : 8 * j + 8 ≤ w) :
    byteAt (packLE w bs) j = bs.getD j 0 := by
  refine BitVec.eq_of_getLsbD_eq fun k hk => ?_
  have h1 : 8 * j + k < w := by omega
  have h2 : (8 * j + k) / 8 = j := by omega
  have h3 : (8 * j + k) % 8 = k := by omega
  rw [getLsbD_byteAt, getLsbD_packLE, h2, h3]
  simp [hk, h1]

/-- A value is determined by its bytes. -/
theorem eq_of_byteAt_eq {w : Nat} {v u : BitVec w} (h : ∀ j, 8 * j < w → byteAt v j = byteAt u j) : v = u := by
  refine BitVec.eq_of_getLsbD_eq fun k hk => ?_
  have h1 := congrArg (fun b => b.getLsbD (k % 8)) (h (k / 8) (by omega))
  have h2 : 8 * (k / 8) + k % 8 = k := by omega
  have h3 : k % 8 < 8 := by omega
  simpa [h2, h3] using h1

@[simp] theorem byteAt_zero (w j : Nat) : byteAt 0#w j = 0#8 := by
  refine BitVec.eq_of_getLsbD_eq fun k _ => ?_
  simp

@[simp] theorem byteAt_xor {w : Nat} (v u : BitVec w) (j : Nat) :
    byteAt (v ^^^ u) j = byteAt v j ^^^ byteAt u j := by
  refine BitVec.eq_of_getLsbD_eq fun k hk => ?_
  simp [hk]

/-- A byte shifted to byte place q of a word. -/
theorem byteAt_shiftLeft_byte (b : Byte) (q j : Nat) (hj : j < 8) (hq : q < 8) :
    byteAt (b.setWidth 64 <<< (8 * q) : Word64) j = if j = q then b else 0 := by
  refine BitVec.eq_of_getLsbD_eq fun k hk => ?_
  rcases Nat.lt_trichotomy j q with h | h | h
  · have h1 : 8 * j + k < 8 * q := by omega
    simp [h1, Nat.ne_of_lt h]
  · subst h
    have h1 : 8 * j + k < 64 := by omega
    simp [h1, BitVec.getLsbD_eq_getElem hk]
  · have h3 : b.getLsbD (8 * j + k - 8 * q) = false := BitVec.getLsbD_of_ge _ _ (by omega)
    simp [h3, Nat.ne_of_gt h]

theorem entry_eq_getElem {w n : Nat} (v : Vector (BitVec w) n) (i : Nat) (h : i < n) : entry v i = v[i] := by
  simp [entry, h]

@[simp] theorem entry_ofFn {w n : Nat} (f : Fin n → BitVec w) (i : Nat) (h : i < n) :
    entry (Vector.ofFn f) i = f ⟨i, h⟩ := by
  simp [entry, h]

theorem entry_of_ge {w n : Nat} (v : Vector (BitVec w) n) (i : Nat) (h : n ≤ i) : entry v i = 0 := by
  simp [entry, h]

/-- An array is determined by its entries. -/
theorem eq_of_entry_eq {w n : Nat} {v u : Vector (BitVec w) n} (h : ∀ i, i < n → entry v i = entry u i) : v = u := by
  refine Vector.ext fun i hi => ?_
  simpa [entry_eq_getElem _ _ hi] using h i hi

theorem entry_setIfInBounds {w n : Nat} (v : Vector (BitVec w) n) (p i : Nat) (x : BitVec w) (hp : p < n) :
    entry (v.setIfInBounds p x) i = if i = p then x else entry v i := by
  simp only [entry, Vector.getElem?_setIfInBounds, hp, if_true]
  rcases eq_or_ne p i with h | h
  · simp [h]
  · rw [if_neg h, if_neg h.symm]

namespace Machine

@[simp] theorem entry_accZero (i : Nat) : entry Acc.zero i = 0#64 := by
  by_cases h : i < 20 <;> simp [Acc.zero, entry, h]

@[simp] theorem entry_blockZero (i : Nat) : entry Block.zero i = 0#8 := by
  by_cases h : i < 20 <;> simp [Block.zero, entry, h]

@[simp] theorem accByte_zero (i : Nat) : accByte Acc.zero i = 0#8 := by simp [accByte]

/-- The Accumulator is determined by its 160 bytes (R31). -/
theorem acc_eq_of_accByte_eq {a b : Acc} (h : ∀ i, i < 160 → accByte a i = accByte b i) : a = b := by
  refine eq_of_entry_eq fun w hw => eq_of_byteAt_eq fun j hj => ?_
  have h1 := h (8 * w + j) (by omega)
  have h2 : (8 * w + j) / 8 = w := by omega
  have h3 : (8 * w + j) % 8 = j := by omega
  simpa [accByte, h2, h3] using h1

@[simp] theorem entry_accXor (a b : Acc) (i : Nat) : entry (accXor a b) i = entry a i ^^^ entry b i := by
  by_cases h : i < 20
  · simp [accXor, h]
  · simp [entry_of_ge, Nat.le_of_not_lt h]

@[simp] theorem accByte_accXor (a b : Acc) (i : Nat) : accByte (accXor a b) i = accByte a i ^^^ accByte b i := by
  simp [accByte]

@[simp] theorem entry_blockXor (x y : Block) (j : Nat) : entry (blockXor x y) j = entry x j ^^^ entry y j := by
  by_cases h : j < 20
  · simp [blockXor, h]
  · simp [entry_of_ge, Nat.le_of_not_lt h]

/-- XORing a byte into accb[p] changes accb[p] and no other byte (R31, R76). -/
theorem accByte_xorByteAt (a : Acc) (p i : Nat) (b : Byte) (hp : p < 160) :
    accByte (xorByteAt a p b) i = if i = p then accByte a i ^^^ b else accByte a i := by
  have hp8 : p / 8 < 20 := by omega
  simp only [accByte, xorByteAt, entry_setIfInBounds _ _ _ _ hp8]
  by_cases hw : i / 8 = p / 8
  · rw [if_pos hw, byteAt_xor, byteAt_shiftLeft_byte _ _ _ (by omega) (by omega), hw]
    by_cases h : i = p
    · simp [h]
    · have : i % 8 ≠ p % 8 := by omega
      simp [h, this]
  · have h : i ≠ p := fun h => hw (by rw [h])
    rw [if_neg hw, if_neg h]

/-- Byte j of a block read back from its 160-bit integer (R9). -/
theorem byteAt_int160 (x : Block) (j : Nat) (h : j < 20) : byteAt (int160 x) j = entry x j := by
  rw [int160, byteAt_packLE _ _ _ (by omega)]
  simp [entry, List.getD_eq_getElem?_getD, h]

/-- bytes20 is the inverse of int160 (R9). -/
@[simp] theorem bytes20_int160 (x : Block) : bytes20 (int160 x) = x := by
  refine eq_of_entry_eq fun j hj => ?_
  simp [bytes20, hj, byteAt_int160]

/-- int160 is the inverse of bytes20 (R9). -/
@[simp] theorem int160_bytes20 (v : BitVec 160) : int160 (bytes20 v) = v := by
  refine eq_of_byteAt_eq fun j hj => ?_
  have h : j < 20 := by omega
  rw [byteAt_int160 _ _ h]
  simp [bytes20, h]

@[simp] theorem entry_bytes20 (v : BitVec 160) (j : Nat) (h : j < 20) : entry (bytes20 v) j = byteAt v j := by
  simp [bytes20, h]

@[simp] theorem entry_reverseBlock (r : Block) (j : Nat) (h : j < 20) :
    entry (reverseBlock r) j = entry r (19 - j) := by
  simp [reverseBlock, h]

/-- The bits of a 160-bit left rotation: bit k comes from bit k - s, around the end (R10). -/
theorem getLsbD_rotl160 (v : BitVec 160) (s k : Nat) (hs : s < 160) (hk : k < 160) :
    (rotl160 v s).getLsbD k = v.getLsbD ((k + 160 - s) % 160) := by
  unfold rotl160
  by_cases h0 : s = 0
  · have h1 : (k + 160 - 0) % 160 = k := by omega
    simp [h0, Nat.mod_eq_of_lt hk]
  · by_cases hks : k < s
    · have h2 : (k + 160 - s) % 160 = k + 160 - s := Nat.mod_eq_of_lt (by omega)
      have h3 : 160 - s + k = k + 160 - s := by omega
      simp [h0, hks, h2, h3]
    · have h2 : (k + 160 - s) % 160 = k - s := by omega
      have h3 : v.getLsbD (160 - s + k) = false := BitVec.getLsbD_of_ge _ _ (by omega)
      simp [h0, hks, h2, hk, h3, BitVec.getLsbD_eq_getElem (show k - s < 160 by omega)]

/-- The fold of the bytes absorbed from stream position `len` on, byte by byte: each byte goes to its position modulo
160, so an Accumulator byte changes by the XOR of the bytes at its positions (R76). -/
theorem accByte_absorbBytes (a : Acc) (len i : Nat) (bs : List Byte) :
    accByte (absorbBytes a len bs) i =
      accByte a i ^^^ (List.range bs.length).foldl (fun b j => if (len + j) % 160 = i then b ^^^ bs.getD j 0 else b) 0 := by
  induction bs generalizing a len with
  | nil => simp [absorbBytes]
  | cons c cs ih =>
    have hstep : ∀ (l : List Nat) (x y : Byte),
        l.foldl (fun b j => if (len + 1 + j) % 160 = i then b ^^^ cs.getD j 0 else b) (x ^^^ y)
          = x ^^^ l.foldl (fun b j => if (len + 1 + j) % 160 = i then b ^^^ cs.getD j 0 else b) y := by
      intro l
      induction l with
      | nil => simp
      | cons j l ihl =>
        intro x y
        simp only [List.foldl_cons]
        by_cases h : (len + 1 + j) % 160 = i
        · rw [if_pos h, if_pos h, BitVec.xor_assoc, ihl]
        · rw [if_neg h, if_neg h, ihl]
    rw [absorbBytes, ih, accByte_xorByteAt _ _ _ _ (Nat.mod_lt _ (by omega))]
    simp only [List.length_cons, List.range_succ_eq_map, List.foldl_cons, List.foldl_map, Nat.add_zero]
    have hfun : (fun (b : Byte) (j : Nat) => if (len + j.succ) % 160 = i then b ^^^ (c :: cs).getD j.succ 0 else b)
        = fun b j => if (len + 1 + j) % 160 = i then b ^^^ cs.getD j 0 else b := by
      funext b j
      have h1 : len + j.succ = len + 1 + j := by omega
      simp [h1]
    rw [hfun]
    by_cases h : len % 160 = i
    · have := hstep (List.range cs.length) c 0
      rw [show c ^^^ (0 : Byte) = c from BitVec.xor_zero] at this
      rw [if_pos h.symm, if_pos h, BitVec.xor_assoc, ← this]
      simp
    · have h' : ¬ i = len % 160 := fun e => h e.symm
      simp [h, h']

/-- The range check of R117, for a count that a command can have. -/
theorem lengthOverflows_iff (e : Engine) (n : Nat) (h : n ≤ 8) :
    e.lengthOverflows n = true ↔ 2 ^ 64 - 1 < e.len.toNat + n := by
  simp only [Engine.lengthOverflows, decide_eq_true_eq]
  omega

theorem byteCount_le (nm1 : BitVec 3) : byteCount nm1 ≤ 8 := by
  have := nm1.isLt
  simp only [byteCount]
  omega

@[simp] theorem length_payload (e : Engine) : e.payload.length = 8 := rfl

theorem length_operand (e : Engine) (n : Nat) (h : n ≤ 8) : (e.operand n).length = n := by
  simpa [Engine.operand] using h

end Machine

end Sys2Proof
end

