-- ==== Sys2Proof/Laws/PerInstr.lean ====
section
/-! SUPPORT. A fact about every command as syntax: its word has the match and mask of its row of
spec/opcode_table.json. -/

namespace Sys2Proof.Laws.TableRow

/-- The row's mask (spec/opcode_table.json). -/
def maskOf : Instr → Reg32
  | .nop => 0xFFFFFFFF
  | .init => 0xFFFFFFFF
  | .absorb _ => 0xFFFFFF8F
  | .final => 0xFFFFFFFF
  | .fail => 0xFFFFFFFF

/-- The row's match (spec/opcode_table.json). -/
def matchOf : Instr → Reg32
  | .nop => 0x00000000
  | .init => 0x00000001
  | .absorb _ => 0x00000002
  | .final => 0x00000003
  | .fail => 0x00000004

/-- The command's word, masked, is its row's match. -/
def Statement (i : Instr) : Prop := encode i &&& maskOf i = matchOf i

theorem nop : Statement .nop := by unfold Statement; decide

theorem init : Statement .init := by unfold Statement; decide

theorem absorb (nm1 : BitVec 3) : Statement (.absorb nm1) := by
  unfold Statement
  revert nm1
  decide

theorem final : Statement .final := by unfold Statement; decide

theorem fail : Statement .fail := by unfold Statement; decide

end Sys2Proof.Laws.TableRow
end

