-- ==== Sys2Proof/Laws/RegisterMap.lean ====
section
/-! SUPPORT. The register map as a table: an aligned offset and its register determine each other (10_state.md R15,
30_encoding.md R70). -/

namespace Sys2Proof.Machine

/-- An access is accepted when its three conditions hold (R41). -/
theorem Access.accepted_iff (a : Access) :
    a.accepted = true ↔ a.bits = 32 ∧ a.off.toNat % 4 = 0 ∧ a.lanes = 0xF := by
  have h : a.aligned = true ↔ a.off.toNat % 4 = 0 := by
    simp only [Access.aligned, beq_iff_eq]
    constructor
    · intro h
      have := congrArg BitVec.toNat h
      simpa using this
    · intro h
      apply BitVec.eq_of_toNat_eq
      simpa using h
  simp only [Access.accepted, Access.fullWidth, Access.allLanes, Bool.and_eq_true, beq_iff_eq, h]
  exact ⟨fun ⟨⟨h1, h2⟩, h3⟩ => ⟨h1, h2, h3⟩, fun ⟨h1, h2, h3⟩ => ⟨⟨h1, h2⟩, h3⟩⟩

theorem Access.readOf_accepted_iff (off : BitVec 12) : (Access.readOf off).accepted = true ↔ off.toNat % 4 = 0 := by
  simp [Access.accepted_iff, Access.readOf]

theorem Access.writeOf_accepted_iff (off : BitVec 12) (v : Reg32) :
    (Access.writeOf off v).accepted = true ↔ off.toNat % 4 = 0 := by
  simp [Access.accepted_iff, Access.writeOf]

/-- The register at a register's own offset is that register. -/
@[simp] theorem registerAt_offset (r : Register) : registerAt r.offset = some r := by
  cases r with
  | digest k => revert k; decide
  | acc m => revert m; decide
  | _ => decide

/-- Every register's offset is a multiple of 4. -/
theorem Register.offset_aligned (r : Register) : r.offset.toNat % 4 = 0 := by
  cases r with
  | digest k => revert k; decide
  | acc m => revert m; decide
  | _ => decide

/-- An aligned offset that names a register is that register's offset. -/
theorem offset_of_registerAt {off : BitVec 12} {r : Register} (h4 : off.toNat % 4 = 0)
    (h : registerAt off = some r) : off = r.offset := by
  have hlt := off.isLt
  apply BitVec.eq_of_toNat_eq
  unfold registerAt at h
  split at h
  all_goals first
    | (cases h; simp only [Register.offset]; simp; omega)
    | (split at h
       · cases h; simp only [Register.offset, BitVec.toNat_ofNat]; omega
       · split at h
         · cases h; simp only [Register.offset, BitVec.toNat_ofNat]; omega
         · cases h)

/-- A read of a register's own offset returns the register. -/
@[simp] theorem regRead_offset (e : Engine) (r : Register) : regRead e r.offset = r.read e := by
  simp [regRead]

end Sys2Proof.Machine
end

