-- ==== Sys2Proof/Laws/State.lean ====
section
/-! SUPPORT. What each named update of the state writes and leaves, one lemma per field, so that no later proof unfolds
a record update. -/

namespace Sys2Proof.Machine

@[simp] theorem State.withEngine_engine (s : State) (e : Engine) : (s.withEngine e).engine = e := rfl
@[simp] theorem State.withEngine_host (s : State) (e : Engine) : (s.withEngine e).host = s.host := rfl
@[simp] theorem State.withEngine_schedule (s : State) (e : Engine) : (s.withEngine e).schedule = s.schedule := rfl
@[simp] theorem State.withEngine_responses (s : State) (e : Engine) : (s.withEngine e).responses = s.responses := rfl
@[simp] theorem State.respond_engine (s : State) (r : BusResponse) : (s.respond r).engine = s.engine := rfl
@[simp] theorem State.respond_host (s : State) (r : BusResponse) : (s.respond r).host = s.host := rfl
@[simp] theorem State.respond_schedule (s : State) (r : BusResponse) : (s.respond r).schedule = s.schedule := rfl
@[simp] theorem State.respond_responses (s : State) (r : BusResponse) : (s.respond r).responses = r :: s.responses := rfl
@[simp] theorem State.raise_engine (s : State) (c : ErrorCode) : (s.raise c).engine = s.engine.raise c := rfl
@[simp] theorem State.raise_host (s : State) (c : ErrorCode) : (s.raise c).host = s.host := rfl
@[simp] theorem State.raise_schedule (s : State) (c : ErrorCode) : (s.raise c).schedule = s.schedule := rfl
@[simp] theorem State.raise_responses (s : State) (c : ErrorCode) : (s.raise c).responses = s.responses := rfl

@[simp] theorem Engine.raise_acc (e : Engine) (c : ErrorCode) : (e.raise c).acc = e.acc := rfl
@[simp] theorem Engine.raise_len (e : Engine) (c : ErrorCode) : (e.raise c).len = e.len := rfl
@[simp] theorem Engine.raise_dig (e : Engine) (c : ErrorCode) : (e.raise c).dig = e.dig := rfl
@[simp] theorem Engine.raise_st (e : Engine) (c : ErrorCode) : (e.raise c).st = e.st := rfl
@[simp] theorem Engine.raise_dvalid (e : Engine) (c : ErrorCode) : (e.raise c).dvalid = e.dvalid := rfl
@[simp] theorem Engine.raise_srcerr (e : Engine) (c : ErrorCode) : (e.raise c).srcerr = e.srcerr := rfl
@[simp] theorem Engine.raise_errCmd (e : Engine) (c : ErrorCode) : (e.raise c).errCmd = (e.errCmd || c == .illegalCmd) := rfl
@[simp] theorem Engine.raise_errSeq (e : Engine) (c : ErrorCode) : (e.raise c).errSeq = (e.errSeq || c == .sequence) := rfl
@[simp] theorem Engine.raise_errLen (e : Engine) (c : ErrorCode) : (e.raise c).errLen = (e.errLen || c == .lengthOverflow) := rfl
@[simp] theorem Engine.raise_firstErr (e : Engine) (c : ErrorCode) : (e.raise c).firstErr = e.firstErr.or (some c) := rfl
@[simp] theorem Engine.raise_compat (e : Engine) (c : ErrorCode) : (e.raise c).compat = e.compat := rfl
@[simp] theorem Engine.raise_ie (e : Engine) (c : ErrorCode) : (e.raise c).ie = e.ie := rfl
@[simp] theorem Engine.raise_dataLo (e : Engine) (c : ErrorCode) : (e.raise c).dataLo = e.dataLo := rfl
@[simp] theorem Engine.raise_dataHi (e : Engine) (c : ErrorCode) : (e.raise c).dataHi = e.dataHi := rfl

@[simp] theorem Engine.clearErrors_acc (e : Engine) : (e.clearErrors).acc = e.acc := rfl
@[simp] theorem Engine.clearErrors_len (e : Engine) : (e.clearErrors).len = e.len := rfl
@[simp] theorem Engine.clearErrors_dig (e : Engine) : (e.clearErrors).dig = e.dig := rfl
@[simp] theorem Engine.clearErrors_st (e : Engine) : (e.clearErrors).st = e.st := rfl
@[simp] theorem Engine.clearErrors_dvalid (e : Engine) : (e.clearErrors).dvalid = e.dvalid := rfl
@[simp] theorem Engine.clearErrors_srcerr (e : Engine) : (e.clearErrors).srcerr = e.srcerr := rfl
@[simp] theorem Engine.clearErrors_errCmd (e : Engine) : (e.clearErrors).errCmd = false := rfl
@[simp] theorem Engine.clearErrors_errSeq (e : Engine) : (e.clearErrors).errSeq = false := rfl
@[simp] theorem Engine.clearErrors_errLen (e : Engine) : (e.clearErrors).errLen = false := rfl
@[simp] theorem Engine.clearErrors_firstErr (e : Engine) : (e.clearErrors).firstErr = none := rfl
@[simp] theorem Engine.clearErrors_compat (e : Engine) : (e.clearErrors).compat = e.compat := rfl
@[simp] theorem Engine.clearErrors_ie (e : Engine) : (e.clearErrors).ie = e.ie := rfl
@[simp] theorem Engine.clearErrors_dataLo (e : Engine) : (e.clearErrors).dataLo = e.dataLo := rfl
@[simp] theorem Engine.clearErrors_dataHi (e : Engine) : (e.clearErrors).dataHi = e.dataHi := rfl

@[simp] theorem Engine.openRun_acc (e : Engine) : (e.openRun).acc = Acc.zero := rfl
@[simp] theorem Engine.openRun_len (e : Engine) : (e.openRun).len = 0 := rfl
@[simp] theorem Engine.openRun_dig (e : Engine) : (e.openRun).dig = Block.zero := rfl
@[simp] theorem Engine.openRun_st (e : Engine) : (e.openRun).st = .absorb := rfl
@[simp] theorem Engine.openRun_dvalid (e : Engine) : (e.openRun).dvalid = false := rfl
@[simp] theorem Engine.openRun_srcerr (e : Engine) : (e.openRun).srcerr = false := rfl
@[simp] theorem Engine.openRun_errCmd (e : Engine) : (e.openRun).errCmd = false := rfl
@[simp] theorem Engine.openRun_errSeq (e : Engine) : (e.openRun).errSeq = false := rfl
@[simp] theorem Engine.openRun_errLen (e : Engine) : (e.openRun).errLen = false := rfl
@[simp] theorem Engine.openRun_firstErr (e : Engine) : (e.openRun).firstErr = none := rfl
@[simp] theorem Engine.openRun_compat (e : Engine) : (e.openRun).compat = e.compat := rfl
@[simp] theorem Engine.openRun_ie (e : Engine) : (e.openRun).ie = e.ie := rfl
@[simp] theorem Engine.openRun_dataLo (e : Engine) : (e.openRun).dataLo = e.dataLo := rfl
@[simp] theorem Engine.openRun_dataHi (e : Engine) : (e.openRun).dataHi = e.dataHi := rfl

@[simp] theorem Engine.closeStream_acc (e : Engine) : (e.closeStream).acc = e.acc := rfl
@[simp] theorem Engine.closeStream_len (e : Engine) : (e.closeStream).len = e.len := rfl
@[simp] theorem Engine.closeStream_dig (e : Engine) : (e.closeStream).dig = e.dig := rfl
@[simp] theorem Engine.closeStream_st (e : Engine) : (e.closeStream).st = .busy := rfl
@[simp] theorem Engine.closeStream_dvalid (e : Engine) : (e.closeStream).dvalid = e.dvalid := rfl
@[simp] theorem Engine.closeStream_srcerr (e : Engine) : (e.closeStream).srcerr = e.srcerr := rfl
@[simp] theorem Engine.closeStream_errCmd (e : Engine) : (e.closeStream).errCmd = e.errCmd := rfl
@[simp] theorem Engine.closeStream_errSeq (e : Engine) : (e.closeStream).errSeq = e.errSeq := rfl
@[simp] theorem Engine.closeStream_errLen (e : Engine) : (e.closeStream).errLen = e.errLen := rfl
@[simp] theorem Engine.closeStream_firstErr (e : Engine) : (e.closeStream).firstErr = e.firstErr := rfl
@[simp] theorem Engine.closeStream_compat (e : Engine) : (e.closeStream).compat = e.compat := rfl
@[simp] theorem Engine.closeStream_ie (e : Engine) : (e.closeStream).ie = e.ie := rfl
@[simp] theorem Engine.closeStream_dataLo (e : Engine) : (e.closeStream).dataLo = e.dataLo := rfl
@[simp] theorem Engine.closeStream_dataHi (e : Engine) : (e.closeStream).dataHi = e.dataHi := rfl

@[simp] theorem Engine.failRun_acc (e : Engine) : (e.failRun).acc = Acc.zero := rfl
@[simp] theorem Engine.failRun_len (e : Engine) : (e.failRun).len = 0 := rfl
@[simp] theorem Engine.failRun_dig (e : Engine) : (e.failRun).dig = Block.zero := rfl
@[simp] theorem Engine.failRun_st (e : Engine) : (e.failRun).st = .done := rfl
@[simp] theorem Engine.failRun_dvalid (e : Engine) : (e.failRun).dvalid = e.compat := rfl
@[simp] theorem Engine.failRun_srcerr (e : Engine) : (e.failRun).srcerr = true := rfl
@[simp] theorem Engine.failRun_errCmd (e : Engine) : (e.failRun).errCmd = e.errCmd := rfl
@[simp] theorem Engine.failRun_errSeq (e : Engine) : (e.failRun).errSeq = e.errSeq := rfl
@[simp] theorem Engine.failRun_errLen (e : Engine) : (e.failRun).errLen = e.errLen := rfl
@[simp] theorem Engine.failRun_firstErr (e : Engine) : (e.failRun).firstErr = e.firstErr := rfl
@[simp] theorem Engine.failRun_compat (e : Engine) : (e.failRun).compat = e.compat := rfl
@[simp] theorem Engine.failRun_ie (e : Engine) : (e.failRun).ie = e.ie := rfl
@[simp] theorem Engine.failRun_dataLo (e : Engine) : (e.failRun).dataLo = e.dataLo := rfl
@[simp] theorem Engine.failRun_dataHi (e : Engine) : (e.failRun).dataHi = e.dataHi := rfl

@[simp] theorem Engine.absorb_acc (e : Engine) (n : Nat) : (e.absorb n).acc = absorbBytes e.acc e.len.toNat (e.operand n) := rfl
@[simp] theorem Engine.absorb_len (e : Engine) (n : Nat) : (e.absorb n).len = e.len + BitVec.ofNat 64 n := rfl
@[simp] theorem Engine.absorb_dig (e : Engine) (n : Nat) : (e.absorb n).dig = e.dig := rfl
@[simp] theorem Engine.absorb_st (e : Engine) (n : Nat) : (e.absorb n).st = e.st := rfl
@[simp] theorem Engine.absorb_dvalid (e : Engine) (n : Nat) : (e.absorb n).dvalid = e.dvalid := rfl
@[simp] theorem Engine.absorb_srcerr (e : Engine) (n : Nat) : (e.absorb n).srcerr = e.srcerr := rfl
@[simp] theorem Engine.absorb_errCmd (e : Engine) (n : Nat) : (e.absorb n).errCmd = e.errCmd := rfl
@[simp] theorem Engine.absorb_errSeq (e : Engine) (n : Nat) : (e.absorb n).errSeq = e.errSeq := rfl
@[simp] theorem Engine.absorb_errLen (e : Engine) (n : Nat) : (e.absorb n).errLen = e.errLen := rfl
@[simp] theorem Engine.absorb_firstErr (e : Engine) (n : Nat) : (e.absorb n).firstErr = e.firstErr := rfl
@[simp] theorem Engine.absorb_compat (e : Engine) (n : Nat) : (e.absorb n).compat = e.compat := rfl
@[simp] theorem Engine.absorb_ie (e : Engine) (n : Nat) : (e.absorb n).ie = e.ie := rfl
@[simp] theorem Engine.absorb_dataLo (e : Engine) (n : Nat) : (e.absorb n).dataLo = e.dataLo := rfl
@[simp] theorem Engine.absorb_dataHi (e : Engine) (n : Nat) : (e.absorb n).dataHi = e.dataHi := rfl

@[simp] theorem Engine.writeCfg_acc (e : Engine) (v : Reg32) : (e.writeCfg v).acc = e.acc := rfl
@[simp] theorem Engine.writeCfg_len (e : Engine) (v : Reg32) : (e.writeCfg v).len = e.len := rfl
@[simp] theorem Engine.writeCfg_dig (e : Engine) (v : Reg32) : (e.writeCfg v).dig = e.dig := rfl
@[simp] theorem Engine.writeCfg_st (e : Engine) (v : Reg32) : (e.writeCfg v).st = e.st := rfl
@[simp] theorem Engine.writeCfg_dvalid (e : Engine) (v : Reg32) : (e.writeCfg v).dvalid = e.dvalid := rfl
@[simp] theorem Engine.writeCfg_srcerr (e : Engine) (v : Reg32) : (e.writeCfg v).srcerr = e.srcerr := rfl
@[simp] theorem Engine.writeCfg_errCmd (e : Engine) (v : Reg32) : (e.writeCfg v).errCmd = e.errCmd := rfl
@[simp] theorem Engine.writeCfg_errSeq (e : Engine) (v : Reg32) : (e.writeCfg v).errSeq = e.errSeq := rfl
@[simp] theorem Engine.writeCfg_errLen (e : Engine) (v : Reg32) : (e.writeCfg v).errLen = e.errLen := rfl
@[simp] theorem Engine.writeCfg_firstErr (e : Engine) (v : Reg32) : (e.writeCfg v).firstErr = e.firstErr := rfl
@[simp] theorem Engine.writeCfg_compat (e : Engine) (v : Reg32) : (e.writeCfg v).compat = v.getLsbD 0 := rfl
@[simp] theorem Engine.writeCfg_ie (e : Engine) (v : Reg32) : (e.writeCfg v).ie = v.getLsbD 1 := rfl
@[simp] theorem Engine.writeCfg_dataLo (e : Engine) (v : Reg32) : (e.writeCfg v).dataLo = e.dataLo := rfl
@[simp] theorem Engine.writeCfg_dataHi (e : Engine) (v : Reg32) : (e.writeCfg v).dataHi = e.dataHi := rfl

@[simp] theorem Engine.writeDataLo_acc (e : Engine) (v : Reg32) : (e.writeDataLo v).acc = e.acc := rfl
@[simp] theorem Engine.writeDataLo_len (e : Engine) (v : Reg32) : (e.writeDataLo v).len = e.len := rfl
@[simp] theorem Engine.writeDataLo_dig (e : Engine) (v : Reg32) : (e.writeDataLo v).dig = e.dig := rfl
@[simp] theorem Engine.writeDataLo_st (e : Engine) (v : Reg32) : (e.writeDataLo v).st = e.st := rfl
@[simp] theorem Engine.writeDataLo_dvalid (e : Engine) (v : Reg32) : (e.writeDataLo v).dvalid = e.dvalid := rfl
@[simp] theorem Engine.writeDataLo_srcerr (e : Engine) (v : Reg32) : (e.writeDataLo v).srcerr = e.srcerr := rfl
@[simp] theorem Engine.writeDataLo_errCmd (e : Engine) (v : Reg32) : (e.writeDataLo v).errCmd = e.errCmd := rfl
@[simp] theorem Engine.writeDataLo_errSeq (e : Engine) (v : Reg32) : (e.writeDataLo v).errSeq = e.errSeq := rfl
@[simp] theorem Engine.writeDataLo_errLen (e : Engine) (v : Reg32) : (e.writeDataLo v).errLen = e.errLen := rfl
@[simp] theorem Engine.writeDataLo_firstErr (e : Engine) (v : Reg32) : (e.writeDataLo v).firstErr = e.firstErr := rfl
@[simp] theorem Engine.writeDataLo_compat (e : Engine) (v : Reg32) : (e.writeDataLo v).compat = e.compat := rfl
@[simp] theorem Engine.writeDataLo_ie (e : Engine) (v : Reg32) : (e.writeDataLo v).ie = e.ie := rfl
@[simp] theorem Engine.writeDataLo_dataLo (e : Engine) (v : Reg32) : (e.writeDataLo v).dataLo = v := rfl
@[simp] theorem Engine.writeDataLo_dataHi (e : Engine) (v : Reg32) : (e.writeDataLo v).dataHi = e.dataHi := rfl

@[simp] theorem Engine.writeDataHi_acc (e : Engine) (v : Reg32) : (e.writeDataHi v).acc = e.acc := rfl
@[simp] theorem Engine.writeDataHi_len (e : Engine) (v : Reg32) : (e.writeDataHi v).len = e.len := rfl
@[simp] theorem Engine.writeDataHi_dig (e : Engine) (v : Reg32) : (e.writeDataHi v).dig = e.dig := rfl
@[simp] theorem Engine.writeDataHi_st (e : Engine) (v : Reg32) : (e.writeDataHi v).st = e.st := rfl
@[simp] theorem Engine.writeDataHi_dvalid (e : Engine) (v : Reg32) : (e.writeDataHi v).dvalid = e.dvalid := rfl
@[simp] theorem Engine.writeDataHi_srcerr (e : Engine) (v : Reg32) : (e.writeDataHi v).srcerr = e.srcerr := rfl
@[simp] theorem Engine.writeDataHi_errCmd (e : Engine) (v : Reg32) : (e.writeDataHi v).errCmd = e.errCmd := rfl
@[simp] theorem Engine.writeDataHi_errSeq (e : Engine) (v : Reg32) : (e.writeDataHi v).errSeq = e.errSeq := rfl
@[simp] theorem Engine.writeDataHi_errLen (e : Engine) (v : Reg32) : (e.writeDataHi v).errLen = e.errLen := rfl
@[simp] theorem Engine.writeDataHi_firstErr (e : Engine) (v : Reg32) : (e.writeDataHi v).firstErr = e.firstErr := rfl
@[simp] theorem Engine.writeDataHi_compat (e : Engine) (v : Reg32) : (e.writeDataHi v).compat = e.compat := rfl
@[simp] theorem Engine.writeDataHi_ie (e : Engine) (v : Reg32) : (e.writeDataHi v).ie = e.ie := rfl
@[simp] theorem Engine.writeDataHi_dataLo (e : Engine) (v : Reg32) : (e.writeDataHi v).dataLo = e.dataLo := rfl
@[simp] theorem Engine.writeDataHi_dataHi (e : Engine) (v : Reg32) : (e.writeDataHi v).dataHi = v := rfl

theorem Engine.complete_of_busy (e : Engine) (h : e.st = .busy) :
    e.complete = { e with dig := qxhDigest e.acc e.len, dvalid := true, st := .done } := if_pos h

theorem Engine.complete_of_not_busy (e : Engine) (h : e.st ≠ .busy) : e.complete = e := if_neg h

@[simp] theorem Engine.reset_acc : Engine.reset.acc = Acc.zero := rfl
@[simp] theorem Engine.reset_dig : Engine.reset.dig = Block.zero := rfl
@[simp] theorem Engine.reset_len : Engine.reset.len = 0 := rfl
@[simp] theorem Engine.reset_st : Engine.reset.st = .idle := rfl
@[simp] theorem State.reset_engine : State.reset.engine = Engine.reset := rfl

end Sys2Proof.Machine
end

