-- ==== Sys2Proof/Laws/Step.lean ====
section
/-! SUPPORT. What a command, an access, a turn and a step can do: one inversion lemma each, from which statements about
every step are derived without unfolding the step again. -/

namespace Sys2Proof.Machine

/-- Every command that answers a next state either records one error, or has its own effect (R99, R113). -/
theorem exec_cases {i : Instr} {s t : State} (h : exec i s = .next t) :
    (i = .nop ∧ t = s) ∨
    (i = .init ∧ s.engine.st ≠ .busy ∧ t = s.withEngine s.engine.openRun) ∨
    (i = .init ∧ s.engine.st = .busy ∧ t = s.raise .sequence) ∨
    (∃ n, i = .absorb n ∧ s.engine.st = .absorb ∧ s.engine.lengthOverflows (byteCount n) = false ∧
      t = s.withEngine (s.engine.absorb (byteCount n))) ∨
    (∃ n, i = .absorb n ∧ s.engine.st = .absorb ∧ s.engine.lengthOverflows (byteCount n) = true ∧
      t = s.raise .lengthOverflow) ∨
    (∃ n, i = .absorb n ∧ s.engine.st ≠ .absorb ∧ t = s.raise .sequence) ∨
    (i = .final ∧ s.engine.st = .absorb ∧ s.engine.errLen = false ∧ t = s.withEngine s.engine.closeStream) ∨
    (i = .final ∧ ¬ (s.engine.st = .absorb ∧ s.engine.errLen = false) ∧ t = s.raise .sequence) ∨
    (i = .fail ∧ s.engine.st ≠ .busy ∧ t = s.withEngine s.engine.failRun) ∨
    (i = .fail ∧ s.engine.st = .busy ∧ t = s.raise .sequence) := by
  cases i with
  | nop => simp_all [exec, execNop]
  | init => simp only [exec, execInit] at h; split at h <;> simp_all
  | absorb n =>
    simp only [exec, execAbsorb] at h
    split at h
    · simp_all
    · split at h <;> simp_all
  | final =>
    simp only [exec, execFinal] at h
    split at h
    · simp_all
    · split at h <;> simp_all
  | fail => simp only [exec, execFail] at h; split at h <;> simp_all

/-- Every command answers a next state, in every state, and touches the engine alone (R99). -/
theorem exec_next (i : Instr) (s : State) : ∃ e, exec i s = .next (s.withEngine e) := by
  cases i with
  | nop => exact ⟨s.engine, rfl⟩
  | init => by_cases h : s.engine.st = .busy <;> simp only [exec, execInit, h, if_true, if_false] <;> exact ⟨_, rfl⟩
  | absorb n => simp only [exec, execAbsorb]; split <;> [skip; split] <;> exact ⟨_, rfl⟩
  | final => simp only [exec, execFinal]; split <;> [skip; split] <;> exact ⟨_, rfl⟩
  | fail => by_cases h : s.engine.st = .busy <;> simp only [exec, execFail, h, if_true, if_false] <;> exact ⟨_, rfl⟩

/-- A CMD write performs its command or records ILLEGAL_CMD (R99). -/
theorem commandWrite_cases {v : Reg32} {s t : State} (h : commandWrite v s = .next t) :
    (∃ i, decode v = .command i ∧ exec i s = .next t) ∨ (∃ r, decode v = .illegal r ∧ t = s.raise .illegalCmd) := by
  unfold commandWrite at h
  split at h <;> simp_all

theorem commandWrite_next (v : Reg32) (s : State) : ∃ e, commandWrite v s = .next (s.withEngine e) := by
  unfold commandWrite
  split
  · exact exec_next _ _
  · exact ⟨_, rfl⟩

/-- A register write performs a command, stores, or is ignored (R108). -/
theorem regWrite_cases {off : BitVec 12} {v : Reg32} {s t : State} (h : regWrite off v s = .next t) :
    (registerAt off = some .cmd ∧ commandWrite v s = .next t) ∨
    (registerAt off = some .cfg ∧ t = s.withEngine (s.engine.writeCfg v)) ∨
    (registerAt off = some .dataLo ∧ t = s.withEngine (s.engine.writeDataLo v)) ∨
    (registerAt off = some .dataHi ∧ t = s.withEngine (s.engine.writeDataHi v)) ∨
    (registerAt off ≠ some .cmd ∧ registerAt off ≠ some .cfg ∧ registerAt off ≠ some .dataLo ∧
      registerAt off ≠ some .dataHi ∧ t = s) := by
  unfold regWrite at h
  split at h <;> simp_all

theorem regWrite_next (off : BitVec 12) (v : Reg32) (s : State) : ∃ e, regWrite off v s = .next (s.withEngine e) := by
  unfold regWrite
  split
  · exact commandWrite_next _ _
  all_goals exact ⟨_, rfl⟩

/-- An aligned 32-bit write is accepted, answered, and performed (R41, R108). -/
theorem performAccess_writeOf (off : BitVec 12) (v : Reg32) (s : State) (h : off.toNat % 4 = 0) :
    performAccess (Access.writeOf off v) s = regWrite off v (s.respond .writeDone) := by
  have ha := (Access.writeOf_accepted_iff off v).2 h
  simp only [performAccess, ha, if_true]
  rfl

/-- An aligned 32-bit read is accepted and answered with the register's value (R41, R107). -/
theorem performAccess_readOf (off : BitVec 12) (s : State) (h : off.toNat % 4 = 0) :
    performAccess (Access.readOf off) s = .next (s.respond (.readData (regRead s.engine off))) := by
  have ha := (Access.readOf_accepted_iff off).2 h
  simp only [performAccess, ha, if_true]
  rfl

/-- A write to CMD at the host's turn (R99). -/
theorem hostTurn_writeCmd (s : State) (v : Reg32) (rest : List HostAction)
    (h : s.host = .access (Access.writeOf Register.cmd.offset v) :: rest) :
    hostTurn s = commandWrite v { s with host := rest, responses := .writeDone :: s.responses } := by
  simp only [hostTurn, h, performAccess_writeOf _ _ _ (Register.offset_aligned .cmd), regWrite, registerAt_offset]
  rfl

/-- A host's turn: nothing to do, an accepted read, an accepted write, or a round of a POLL (R51). -/
theorem hostTurn_cases {s t : State} (h : hostTurn s = .next t) :
    (s.host = [] ∧ t = s) ∨
    (∃ a rest, s.host = .access a :: rest ∧ a.accepted = true ∧ a.dir = .read ∧
      t = { s with host := rest, responses := .readData (regRead s.engine a.off) :: s.responses }) ∨
    (∃ a rest v, s.host = .access a :: rest ∧ a.accepted = true ∧ a.dir = .write v ∧
      regWrite a.off v { s with host := rest, responses := .writeDone :: s.responses } = .next t) ∨
    (∃ off mask value rest, s.host = .poll off mask value :: rest ∧ (Access.readOf off).accepted = true ∧
      t = { s with
        host := if regRead s.engine off &&& mask = value then rest else s.host
        responses := .readData (regRead s.engine off) :: s.responses }) := by
  unfold hostTurn at h
  split at h
  · simp_all
  · rename_i a rest hh
    unfold performAccess at h
    split at h
    · split at h
      · refine .inr (.inl ⟨a, rest, hh, ‹_›, ‹_›, ?_⟩)
        simpa [State.respond] using h.symm
      · exact .inr (.inr (.inl ⟨a, rest, _, hh, ‹_›, ‹_›, h⟩))
    · cases h
  · rename_i off mask value rest hh
    unfold performPoll at h
    split at h
    · refine .inr (.inr (.inr ⟨off, mask, value, rest, hh, ‹_›, ?_⟩))
      simpa [State.respond] using h.symm
    · cases h

/-- The host's turn is refused only on an access the engine does not accept (R42). -/
theorem hostTurn_next_or_refused (s : State) :
    (∃ t, hostTurn s = .next t) ∨
    (∃ a rest, s.host = a :: rest ∧ a.wellFormed = false ∧ hostTurn s = .refused .busError) := by
  rcases hs : s.host with _ | ⟨a | ⟨off, mask, value⟩, rest⟩
  · exact .inl ⟨s, by simp [hostTurn, hs]⟩
  · by_cases ha : a.accepted = true
    · refine .inl ?_
      rcases hd : a.dir with _ | v
      · exact ⟨_, by simp only [hostTurn, hs, performAccess, ha, hd, if_true]; rfl⟩
      · obtain ⟨e, he⟩ := regWrite_next a.off v (({ s with host := rest } : State).respond .writeDone)
        exact ⟨_, by simp only [hostTurn, hs, performAccess, ha, hd, if_true]; exact he⟩
    · refine .inr ⟨.access a, rest, rfl, ?_, ?_⟩
      · simpa [HostAction.wellFormed, HostAction.toAccess] using ha
      · simp only [hostTurn, hs, performAccess, if_neg ha]
  · by_cases ha : (Access.readOf off).accepted = true
    · exact .inl ⟨_, by simp only [hostTurn, hs, performPoll, ha, if_true]; rfl⟩
    · refine .inr ⟨.poll off mask value, rest, rfl, ?_, ?_⟩
      · simpa [HostAction.wellFormed, HostAction.toAccess] using ha
      · simp only [hostTurn, hs, performPoll, if_neg ha]

/-- A step is one agent's turn, with that agent's entry of the schedule used up (R52). -/
theorem step_cases {s t : State} (h : step s = .next t) :
    (s.nextTurn = .host ∧ hostTurn { s with schedule := s.schedule.tail } = .next t) ∨
    (s.nextTurn = .engine ∧ t = { s with engine := s.engine.complete, schedule := s.schedule.tail }) ∨
    (s.nextTurn = .reset ∧ t = { s with engine := Engine.reset, schedule := s.schedule.tail }) := by
  unfold step stepOnce takeTurn at h
  split at h
  · exact .inl ⟨‹_›, h⟩
  · refine .inr (.inl ⟨‹_›, ?_⟩)
    simpa [engineTurn, State.withEngine] using h.symm
  · refine .inr (.inr ⟨‹_›, ?_⟩)
    simpa [resetTurn, State.withEngine] using h.symm

theorem nextTurn_of_schedule {s : State} {u : Turn} {us : List Turn} (h : s.schedule = u :: us) : s.nextTurn = u := by
  simp [State.nextTurn, h]

/-- What a step does to the engine: reset, COMPLETE, nothing, or the one register write it performs, which meets the
engine as it stands (R50, R51). -/
theorem step_engine_cases {s t : State} (h : step s = .next t) :
    (s.nextTurn = .reset ∧ s.writeNow = none ∧ t.engine = Engine.reset) ∨
    (s.nextTurn = .engine ∧ s.writeNow = none ∧ t.engine = s.engine.complete) ∨
    (s.nextTurn = .host ∧ s.writeNow = none ∧ t.engine = s.engine) ∨
    (∃ off v u, s.nextTurn = .host ∧ s.writeNow = some (off, v) ∧ off.toNat % 4 = 0 ∧ u.engine = s.engine ∧
      regWrite off v u = .next t) := by
  rcases step_cases h with ⟨ht, hh⟩ | ⟨ht, rfl⟩ | ⟨ht, rfl⟩
  · rcases hostTurn_cases hh with ⟨h1, rfl⟩ | ⟨a, rest, h1, h2, h3, rfl⟩ | ⟨a, rest, v, h1, h2, h3, h4⟩ |
      ⟨off, mask, value, rest, h1, h2, rfl⟩
    · exact .inr (.inr (.inl ⟨ht, by simp_all [State.writeNow], rfl⟩))
    · exact .inr (.inr (.inl ⟨ht, by simp_all [State.writeNow], rfl⟩))
    · refine .inr (.inr (.inr ⟨a.off, v, _, ht, by simp_all [State.writeNow],
        ((Access.accepted_iff a).1 h2).2.1, ?_, h4⟩))
      rfl
    · exact .inr (.inr (.inl ⟨ht, by simp_all [State.writeNow], rfl⟩))
  · exact .inr (.inl ⟨ht, by simp [State.writeNow, ht], rfl⟩)
  · exact .inl ⟨ht, by simp [State.writeNow, ht], rfl⟩

end Sys2Proof.Machine
end

