-- ==== Sys2Proof/Tests/Slice0.lean ====
section
/-! SUPPORT. Tests: the worked vectors of 95_test_vectors.md (each test names its vector), ill-formed terms that are
refused, and a witness for every obligation that has hypotheses. -/

namespace Sys2Proof.Tests

open Sys2Proof Sys2Proof.Machine

/-- The reset engine in another STATE. -/
def inState (st : RunState) : State := { State.reset with engine := { Engine.reset with st := st } }

/-- An open run with a length and payload registers. -/
def opened (len : Nat) (lo hi : Reg32) : State :=
  { State.reset with
    engine := { Engine.reset with st := .absorb, len := BitVec.ofNat 64 len, dataLo := lo, dataHi := hi } }

/-- The run of CMD10: after ABSORB 1 of 0x61 and FINAL. -/
def busyA : State :=
  { State.reset with
    engine := { Engine.reset with
      st := .busy, len := 1, dataLo := 0x61, acc := xorByteAt Acc.zero 0 0x61 } }

/-- The state with turns and host actions to come. -/
def facing (us : List Turn) (hs : List HostAction) (s : State) : State := { s with schedule := us, host := hs }

/-- An open run whose LEN has overflowed, as after F13. -/
def overflowed : State :=
  { State.reset with
    engine := { Engine.reset with
      st := .absorb, len := BitVec.ofNat 64 (2 ^ 64 - 1), errLen := true, firstErr := some .lengthOverflow } }

/-- The state an outcome leaves; of an outcome with none, `State.reset`. -/
def after : Outcome → State
  | .next t => t
  | .fault _ => State.reset
  | .refused _ => State.reset

/-- STATUS after a command. -/
def statusAfter (i : Instr) (s : State) : Reg32 := (after (exec i s)).engine.statusWord

/-- A write access as a host action. -/
def wr (r : Register) (v : Reg32) : HostAction := .access (Access.writeOf r.offset v)

/-! ### Decoding: words written out from the fields of R60, RSV NM1 OP -/

theorem test_decode_nop : decode (0b0000000000000000000000000#25 ++ 0b000#3 ++ 0b0000#4) = .command .nop := by decide
theorem test_decode_init : decode (0b0000000000000000000000000#25 ++ 0b000#3 ++ 0b0001#4) = .command .init := by decide
theorem test_decode_absorb_1 :
    decode (0b0000000000000000000000000#25 ++ 0b000#3 ++ 0b0010#4) = .command (.absorb 0b000) := by decide
theorem test_decode_absorb_6 :
    decode (0b0000000000000000000000000#25 ++ 0b101#3 ++ 0b0010#4) = .command (.absorb 0b101) := by decide
theorem test_decode_final : decode (0b0000000000000000000000000#25 ++ 0b000#3 ++ 0b0011#4) = .command .final := by decide
theorem test_decode_fail : decode (0b0000000000000000000000000#25 ++ 0b000#3 ++ 0b0100#4) = .command .fail := by decide

/-- DEC8, DEC11, DEC15 to DEC17: the three cases of R65, by name. -/
theorem test_decode_rejects :
    decode 0x10 = .illegal .strayCount ∧ decode 0x05 = .illegal .reservedOp ∧ decode 0x80 = .illegal .reservedBits ∧
    decode 0x82 = .illegal .reservedBits ∧ decode 0x80000002 = .illegal .reservedBits := by decide

theorem test_encode_absorb_8 : encode (.absorb 7) = 0x00000072 := by decide

theorem test_decodeTableWord :
    decodeTableWord 32 0x72 = some (.absorb 7) ∧ decodeTableWord 32 0x82 = none ∧ decodeTableWord 40 0 = none := by decide

/-- The instruction placed at reset is the one the next step runs: INIT opens a run, the word 5 raises ILLEGAL_CMD
(E1). -/
theorem test_withFetchWord :
    (after (step (State.reset.withFetchWord 32 1))).engine.st = .absorb ∧
    (after (step (State.reset.withFetchWord 32 5))).engine.statusWord = 0x00000110 := by decide

/-! ### Ill-formed terms -/

/-- REG8 and R42: narrow, misaligned and partial accesses are not well formed, and each is refused as a BusError. -/
theorem test_illformed_accesses :
    (HostAction.access { off := 0x00C, bits := 8, lanes := 0x1, dir := .read }).wellFormed = false ∧
    (HostAction.access { off := 0x010, bits := 16, lanes := 0x3, dir := .write 0 }).wellFormed = false ∧
    (HostAction.access { off := 0x002, bits := 32, lanes := 0xF, dir := .read }).wellFormed = false ∧
    (HostAction.access { off := 0x010, bits := 32, lanes := 0x7, dir := .write 0 }).wellFormed = false ∧
    (HostAction.poll 0x00D 0 0).wellFormed = false ∧
    (HostAction.access (Access.readOf 0x00C)).wellFormed = true := by decide

theorem test_misaligned_read_is_refused :
    step (facing [] [.access (Access.readOf 0x002)] State.reset) = .refused .busError := by rfl

/-- R62: every count that can be written is in 1..8. -/
theorem test_wellformed_counts : ∀ n : BitVec 3, (Instr.absorb n).wellFormed = true := by decide

/-- R68, R70: what the assembler rejects. -/
theorem test_assembler_rejects :
    Statement.assemble (.absorb 0) = none ∧ Statement.assemble (.absorb 9) = none ∧
    Statement.assemble (.rd (.raw 0x002)) = none ∧ (Statement.assemble (.absorb 8)).isSome = true := by decide

/-! ### Commands -/

/-- CMD1, CMD10. -/
theorem test_nop : statusAfter .nop State.reset = 0x00000000 ∧ statusAfter .nop busyA = 0x00000002 := by decide

/-- CMD2, CMD11. -/
theorem test_init : statusAfter .init State.reset = 0x00000001 ∧ statusAfter .init busyA = 0x00000222 := by decide

/-- CMD4: INIT drops LEN and keeps the payload. -/
theorem test_init_keeps_payload :
    (after (exec .init (opened 1 0x61 0))).engine.dataLo = 0x61 ∧ (after (exec .init (opened 1 0x61 0))).engine.len = 0 := by
  decide

/-- F3's second half: from LEN = 5, the bytes AA..FF straddle ACC words 1 and 2. -/
theorem test_absorb_straddles :
    (after (exec (.absorb 5) (opened 5 0xDDCCBBAA 0x0000FFEE))).engine.accWord 1 = 0xCCBBAA00 ∧
    (after (exec (.absorb 5) (opened 5 0xDDCCBBAA 0x0000FFEE))).engine.accWord 2 = 0x00FFEEDD := by decide

/-- F4: from LEN = 156, ABSORB 8 wraps from accb[159] to accb[0]. -/
theorem test_absorb_wraps :
    (after (exec (.absorb 7) (opened 156 0x04030201 0x08070605))).engine.accWord 39 = 0x04030201 ∧
    (after (exec (.absorb 7) (opened 156 0x04030201 0x08070605))).engine.accWord 0 = 0x08070605 := by decide

/-- CMD5, F14. -/
theorem test_final : statusAfter .final (inState .absorb) = 0x00000002 ∧ statusAfter .final overflowed = 0x00000361 := by
  decide

/-- CMD6, F16. -/
theorem test_fail : statusAfter .fail State.reset = 0x0000000B ∧ statusAfter .fail overflowed = 0x0000034B := by decide

/-- F12, F13 and F15: the bounds of LEN. -/
theorem test_absorb_length_bound :
    statusAfter (.absorb 7) (opened (2 ^ 64 - 9) 0 0) = 0x00000001 ∧
    statusAfter (.absorb 0) (opened (2 ^ 64 - 1) 0 0) = 0x00000341 ∧
    statusAfter (.absorb 7) (opened (2 ^ 64 - 8) 0x11 0) = 0x00000341 := by decide

/-- CMD12: COMPLETE of "a" shows 0x61000000 in DIGEST4. -/
theorem test_complete_of_a :
    (busyA.engine.complete.statusWord, regRead busyA.engine.complete 0x020, regRead busyA.engine.complete 0x030) =
      (0x00000007, 0x00000001, 0x61000000) := by
  decide +kernel

/-! ### The hash's stages and registers -/

/-- RA3, row i = 29: the carry of byte 19 wraps into byte 0. -/
theorem test_realign_wraps :
    entry (realign (xorByteAt Acc.zero 29 0xff)) 0 = 0x80 ∧ entry (realign (xorByteAt Acc.zero 29 0xff)) 19 = 0x7f := by
  decide +kernel

/-- INJ5. -/
theorem test_inject :
    entry (inject (Vector.replicate 20 0xff) 0x100) 1 = 0xfe ∧ entry (inject (Vector.replicate 20 0xff) 0x100) 0 = 0xff := by
  decide

/-- V5: the digest of "abc". -/
theorem test_digest_abc :
    (qxh [0x61, 0x62, 0x63]).toList =
      [0x03, 0, 0, 0, 0, 0, 0, 0, 0, 0, 0, 0, 0, 0, 0, 0, 0x18, 0xc3, 0x10, 0x61] := by decide +kernel

/-- REG3 and REG6. -/
theorem test_register_writes :
    regRead (after (regWrite 0x004 0xFFFFFFFF State.reset)).engine 0x004 = 0x00000003 ∧
    after (regWrite 0x040 0x12345678 State.reset) = State.reset ∧ after (regWrite 0x018 5 State.reset) = State.reset := by
  decide

/-- The assembler's text of P2's payload line, and an ABSORB 9, which it rejects. -/
theorem test_assembler_text :
    assembleText ['A', 'B', 'S', 'O', 'R', 'B', ' ', '3', ' ', ';', 'x'] = some [wr .cmd 0x00000022] ∧
    assembleText ['A', 'B', 'S', 'O', 'R', 'B', ' ', '9'] = none := by decide +kernel

/-! ### Witnesses: for each obligation with hypotheses, states and operands that meet them, at the bounds of each clause -/

/-- The machine answers a next state. -/
abbrev Steps (s : State) : Prop := ∃ t, step s = .next t

/-- The step changes STATE. -/
abbrev MovesSt (s : State) : Prop := ∃ t, step s = .next t ∧ t.engine.st ≠ s.engine.st

/-- Nothing in the schedule, one command to come. -/
def sending (i : Instr) (s : State) : State := facing [] [writeCommand i] s

theorem witness_IllegalWordsOnlyRecordIllegalCmd :
    (∃ r, decode 0x00000080 = .illegal r) ∧ (∃ r, decode 0xFFFFFFFF = .illegal r) ∧ (∃ r, decode 0x00000005 = .illegal r) ∧
    ∃ r, decode 0x00000010 = .illegal r := ⟨⟨_, rfl⟩, ⟨_, rfl⟩, ⟨_, rfl⟩, ⟨_, rfl⟩⟩

theorem witness_NopHasNoEffect : (0x10 : Reg32).extractLsb' 0 4 = 0 ∧ (0x10 : Reg32) ≠ 0 := by decide

theorem witness_InitOpensAFreshRun :
    State.reset.engine.st ≠ .busy ∧ (inState .done).engine.st ≠ .busy ∧ busyA.engine.st = .busy := by decide

theorem witness_AbsorbFoldsThePayload :
    ((opened (2 ^ 64 - 9) 1 2).engine.st = .absorb ∧
      (opened (2 ^ 64 - 9) 1 2).engine.len.toNat + ((7 : BitVec 3).toNat + 1) ≤ 2 ^ 64 - 1) ∧
    ((opened (2 ^ 64 - 8) 1 2).engine.st = .absorb ∧
      2 ^ 64 - 1 < (opened (2 ^ 64 - 8) 1 2).engine.len.toNat + ((7 : BitVec 3).toNat + 1)) ∧
    (inState .done).engine.st ≠ .absorb := by decide

theorem witness_FinalMakesTheEngineBusy :
    ((inState .absorb).engine.st = .absorb ∧ (inState .absorb).engine.errLen = false) ∧
    State.reset.engine.st ≠ .absorb ∧ overflowed.engine.st = .absorb ∧ overflowed.engine.errLen = true := by decide

theorem witness_FailClosesTheRunWithTheSentinel : overflowed.engine.st ≠ .busy ∧ busyA.engine.st = .busy := by decide

theorem witness_CompleteWritesTheDigest :
    busyA.engine.st = .busy ∧ (State.reset.engine.st ≠ .busy ∧ ∃ t, engineTurn State.reset = .next t) ∧
    (facing [.engine] [] busyA).schedule = .engine :: [] := ⟨by decide, ⟨by decide, _, rfl⟩, rfl⟩

theorem witness_LegalityTableHoldsAndIsAll :
    MovesSt (facing [.reset] [] busyA) ∧ MovesSt (facing [] [] busyA) ∧ MovesSt (sending .init State.reset) ∧
    (∃ t, engineTurn busyA = .next t) ∧ ∃ t, resetTurn busyA = .next t :=
  ⟨⟨_, rfl, by decide⟩, ⟨_, rfl, by decide⟩, ⟨_, rfl, by decide⟩, ⟨_, rfl⟩, ⟨_, rfl⟩⟩

theorem witness_OneErrorPerCommandInPriorityOrder :
    legality .init busyA.engine.st busyA.engine.errLen = none ∧
    (legality (.absorb 7) (opened (2 ^ 64 - 8) 0 0).engine.st (opened (2 ^ 64 - 8) 0 0).engine.errLen ≠ none ∧
      2 ^ 64 - 1 < (opened (2 ^ 64 - 8) 0 0).engine.len.toNat + ((7 : BitVec 3).toNat + 1)) ∧
    (legality (.absorb 7) (opened (2 ^ 64 - 9) 0 0).engine.st (opened (2 ^ 64 - 9) 0 0).engine.errLen ≠ none ∧
      (opened (2 ^ 64 - 9) 0 0).engine.len.toNat + ((7 : BitVec 3).toNat + 1) ≤ 2 ^ 64 - 1) ∧
    legality .init overflowed.engine.st overflowed.engine.errLen ≠ none := by decide

theorem witness_ErrorsAreRecordedAndNothingElse :
    (facing [] [wr .cmd 0x05] State.reset).host = .access (Access.writeOf Register.cmd.offset 0x05) :: [] := rfl

theorem witness_CommandsWriteOnlyTheirElements :
    ∀ i ∈ ([.nop, .init, .absorb 0, .absorb 7, .final, .fail] : List Instr), ∃ t, exec i (opened 0 1 2) = .next t := by
  simp only [List.forall_mem_cons]
  exact ⟨⟨_, rfl⟩, ⟨_, rfl⟩, ⟨_, rfl⟩, ⟨_, rfl⟩, ⟨_, rfl⟩, ⟨_, rfl⟩, fun _ h => nomatch h⟩

/-- ABSORB 8 at LEN = 156 touches ACC39 and ACC0, so offset 0x104 (ACC1) is covered. -/
theorem witness_RegistersACommandLeaves :
    registerAt 0x018 ≠ some .status ∧ (∃ t, exec .final (opened 0 1 2) = .next t) ∧
    ((∃ t, exec (.absorb 7) (opened 156 1 2) = .next t) ∧ registerAt 0x104 ≠ some .status ∧
      registerAt 0x104 ≠ some .lenLo ∧ registerAt 0x104 ≠ some .lenHi ∧ registerAt 0x104 = some (.acc 1) ∧
      ∀ j, j < 8 → (156 + j) % 160 / 4 ≠ 1) ∧
    registerAt 0x034 = none ∧ registerAt 0x014 = some .dataHi :=
  ⟨by decide, ⟨_, rfl⟩, ⟨⟨_, rfl⟩, by decide, by decide, by decide, by decide, by decide⟩, by decide, by decide⟩

theorem witness_WritersOfDvalidAndSrcerr :
    (Steps (facing [.reset] [] busyA) ∧ (facing [.reset] [] busyA).nextTurn = .reset) ∧
    (Steps (facing [] [] busyA) ∧ (facing [] [] busyA).completesNow) ∧
    (Steps (sending .init State.reset) ∧ (sending .init State.reset).acceptsNow .init) ∧
    (Steps (sending .fail overflowed) ∧ (sending .fail overflowed).acceptsNow .fail) ∧ Steps State.reset :=
  ⟨⟨⟨_, rfl⟩, by decide⟩, ⟨⟨_, rfl⟩, by decide⟩, ⟨⟨_, rfl⟩, by decide⟩, ⟨⟨_, rfl⟩, by decide⟩, ⟨_, rfl⟩⟩

theorem witness_ErrorFlagsAreSticky :
    (Steps (sending .nop overflowed) ∧ overflowed.engine.flagOf .lengthOverflow = true) ∧
    (Steps (sending .init overflowed) ∧ (sending .init overflowed).acceptsNow .init) ∧
    ∃ t, step (sending .final State.reset) = .next t ∧ State.reset.engine.flagOf .sequence = false ∧
      t.engine.flagOf .sequence = true :=
  ⟨⟨⟨_, rfl⟩, by decide⟩, ⟨⟨_, rfl⟩, by decide⟩, ⟨_, rfl, by decide⟩⟩

theorem witness_FirstErrKeepsTheFirstError :
    State.reset.engine.firstErr = none ∧
    (Steps (sending .final overflowed) ∧ overflowed.engine.firstErr = some .lengthOverflow) ∧
    (Steps (facing [.reset] [] overflowed) ∧ (facing [.reset] [] overflowed).nextTurn = .reset) ∧
    ∃ t, step (sending .final State.reset) = .next t ∧ t.engine.firstErr = some .sequence :=
  ⟨by decide, ⟨⟨_, rfl⟩, by decide⟩, ⟨⟨_, rfl⟩, by decide⟩, ⟨_, rfl, by decide⟩⟩

theorem witness_PayloadRegistersKeepTheirValue :
    (Steps (facing [] [wr .dataLo 7] State.reset) ∧ (facing [] [wr .dataLo 7] State.reset).writeNow = some (0x010, 7)) ∧
    (Steps (facing [] [wr .dataHi 7] State.reset) ∧ (facing [] [wr .dataHi 7] State.reset).writeNow = some (0x014, 7)) ∧
    Steps (facing [.reset] [] State.reset) ∧ (7 : Nat) < 8 :=
  ⟨⟨⟨_, rfl⟩, by decide⟩, ⟨⟨_, rfl⟩, by decide⟩, ⟨_, rfl⟩, by decide⟩

theorem witness_WritersOfLenAndNoWrap :
    (Steps (sending .fail overflowed) ∧ (sending .fail overflowed).acceptsNow .fail) ∧
    (Steps (sending (.absorb 7) (opened (2 ^ 64 - 9) 0 0)) ∧
      (sending (.absorb 7) (opened (2 ^ 64 - 9) 0 0)).acceptsNow (.absorb 7) ∧
      (opened (2 ^ 64 - 9) 0 0).engine.len.toNat + ((7 : BitVec 3).toNat + 1) ≤ 2 ^ 64 - 1) ∧
    (Steps (sending (.absorb 7) (opened (2 ^ 64 - 8) 0 0)) ∧
      (sending (.absorb 7) (opened (2 ^ 64 - 8) 0 0)).acceptsNow (.absorb 7) ∧
      2 ^ 64 - 1 < (opened (2 ^ 64 - 8) 0 0).engine.len.toNat + ((7 : BitVec 3).toNat + 1)) :=
  ⟨⟨⟨_, rfl⟩, by decide⟩, ⟨⟨_, rfl⟩, by decide⟩, ⟨_, rfl⟩, by decide⟩

/-- A clearing step, and an accepted ABSORB that changes ACC. -/
theorem witness_WritersOfTheAccumulator :
    (Steps (sending .init (opened 1 0x61 0)) ∧ (sending .init (opened 1 0x61 0)).acceptsNow .init) ∧
    ∃ t, step (sending (.absorb 0) (opened 0 0x61 0)) = .next t ∧ t.engine.acc ≠ (opened 0 0x61 0).engine.acc :=
  ⟨⟨⟨_, rfl⟩, by decide⟩, ⟨_, rfl, by decide⟩⟩

theorem witness_WritersOfDig :
    (Steps (facing [.engine] [] busyA) ∧ (facing [.engine] [] busyA).completesNow) ∧
    (Steps (sending .fail State.reset) ∧ (sending .fail State.reset).acceptsNow .fail) ∧
    ∀ k, registerAt 0x100 ≠ some (.digest k) :=
  ⟨⟨⟨_, rfl⟩, by decide⟩, ⟨⟨_, rfl⟩, by decide⟩, by decide⟩

theorem witness_WritersOfCfg :
    (Steps (facing [] [wr .cfg 3] State.reset) ∧ (facing [] [wr .cfg 3] State.reset).writeNow = some (0x004, 3)) ∧
    Steps (facing [.reset] [wr .cfg 3] State.reset) := ⟨⟨⟨_, rfl⟩, by decide⟩, ⟨_, rfl⟩⟩

theorem witness_OverflowedRunClosesOnlyByInitFailOrReset :
    Steps (sending .final overflowed) ∧ (sending .final overflowed).engine.st = .absorb ∧
    (sending .final overflowed).engine.errLen = true := ⟨⟨_, rfl⟩, by decide⟩

theorem witness_IdIsConstantAndCmdIsAPort : decode 0x00000072 = .command (.absorb 7) := by decide

/-- irq is 1 in DONE with IE = 1, and the step is the write of CFG that removes it. -/
theorem witness_IrqHoldsUntilItsConditionIsRemoved :
    Steps (facing [] [wr .cfg 0]
      { State.reset with engine := { Engine.reset with st := .done, ie := true } }) ∧
    ({ Engine.reset with st := .done, ie := true } : Engine).irq = true := ⟨⟨_, rfl⟩, by decide⟩

theorem witness_DigestWindowReads :
    (0 : Nat) < 5 ∧ (4 : Nat) < 5 ∧ (3 : Nat) < 4 ∧ busyA.engine.complete.dvalid = true ∧ State.reset.engine.dvalid = false := by
  decide

theorem witness_AccWindowReads : (0 : Nat) < 40 ∧ (39 : Nat) < 40 ∧ (3 : Nat) < 4 := by decide

theorem witness_ReservedOffsetsReadZeroIgnoreWrites :
    (∀ off ∈ ([0x034, 0x0FC, 0x1A0, 0xFFC] : List (BitVec 12)), off.toNat % 4 = 0 ∧ registerAt off = none ∧
      ((0x034 ≤ off.toNat ∧ off.toNat ≤ 0x0FC) ∨ (0x1A0 ≤ off.toNat ∧ off.toNat ≤ 0xFFC))) ∧
    ∀ off ∈ ([0x000, 0x030, 0x100, 0x19C] : List (BitVec 12)), off.toNat % 4 = 0 ∧ registerAt off ≠ none := by decide

theorem witness_RegisterWritesDoOneThing :
    ∀ off ∈ ([0x000, 0x00C, 0x018, 0x020, 0xFFC] : List (BitVec 12)), off.toNat % 4 = 0 ∧ off ≠ 0x004 ∧ off ≠ 0x008 ∧
      off ≠ 0x010 ∧ off ≠ 0x014 := by decide

/-- The access of the last clause: a 16-bit write at 0x010 (REG8). -/
theorem witness_RegisterWritesDoOneThing_narrow :
    ({ off := 0x010, bits := 16, lanes := 0x3, dir := .write 5 } : Access).dir = .write 5 ∧
    (({ off := 0x010, bits := 16, lanes := 0x3, dir := .write 5 } : Access).bits ≠ 32) := ⟨rfl, by decide⟩

theorem witness_ReadsHaveNoSideEffect :
    (0xFFC : BitVec 12).toNat % 4 = 0 ∧
    (facing [] [.access (Access.readOf 0xFFC)] busyA).host = .access (Access.readOf 0xFFC) :: [] ∧
    (0x00C : BitVec 12).toNat % 4 = 0 ∧ (facing [] [.poll 0x00C 3 3] busyA).host = .poll 0x00C 3 3 :: [] :=
  ⟨by decide, rfl, by decide, rfl⟩

theorem witness_BusErrorExactlyForUnacceptedAccesses :
    (facing [] [.access { off := 0x00C, bits := 8, lanes := 0x1, dir := .read }] State.reset).host =
      .access { off := 0x00C, bits := 8, lanes := 0x1, dir := .read } :: [] := rfl

theorem witness_StepRunsTheDecodedCommand :
    (sending (.absorb 7) (opened 0 1 2)).nextTurn = .host ∧
    (sending (.absorb 7) (opened 0 1 2)).host = .access (Access.writeOf Register.cmd.offset 0x72) :: [] ∧
    decode 0x72 = .command (.absorb 7) := ⟨by decide, rfl, by decide⟩

theorem witness_WindowAddressesReachTheirOffsets :
    windowOffset (Config.qxhBase + 0) = some 0x000 ∧ windowOffset (Config.qxhBase + 4095) = some 0xFFF := by
  simp [windowOffset]

theorem witness_AnyAgentMayMoveNext :
    (facing [.host] [] State.reset).schedule = .host :: [] ∧ (facing [.engine] [] busyA).schedule = .engine :: [] ∧
    (facing [.reset] [] busyA).schedule = .reset :: [] := ⟨rfl, rfl, rfl⟩

/-- P5: FINAL followed at once by INIT, in both orders. -/
theorem witness_CommandsRaceWithComplete :
    busyA.engine.st = .busy ∧
    (facing [.host, .engine] [writeCommand .init] busyA).host = writeCommand .init :: [] ∧
    (facing [.host, .engine] [writeCommand .init] busyA).schedule = .host :: .engine :: [] ∧
    (facing [.engine, .host] [writeCommand .init] busyA).schedule = .engine :: .host :: [] := ⟨rfl, rfl, rfl, rfl⟩

theorem witness_ResetLeavesTheSpecsValues :
    (facing [.reset] [] busyA).schedule = .reset :: [] ∧ (0x000 : BitVec 12).toNat % 4 = 0 ∧
    (0xFFC : BitVec 12).toNat % 4 = 0 := ⟨rfl, by decide, by decide⟩

theorem witness_BusyEventuallyCompletes :
    (facing [.host, .host] [wr .cfg 2] busyA).engine.st = .busy ∧ (facing [.host, .host] [wr .cfg 2] busyA).noReset ∧
    (facing [.host, .host] [wr .cfg 2] busyA).hostWellFormed := by decide

theorem witness_FoldByteForm : (0 : Nat) < 160 ∧ (159 : Nat) < 160 := by decide

theorem witness_FoldAlgorithmMeetsItsContract :
    ([] : List Byte).length % 160 = 0 ∧ (List.replicate 160 (0x01 : Byte)).length % 160 = 0 := by simp

/-- The body of P2: the payload "abc" in two splits, with a read between. -/
def bodyAbc : List HostAction :=
  [wr .dataLo 0x00636261, writeCommand (.absorb 0), .access (Access.readOf 0x018), wr .dataLo 0x00006362,
    writeCommand (.absorb 1)]

theorem witness_SegmentationIndependence :
    State.reset.engine.st ≠ .busy ∧
    (facing (List.replicate (bodyAbc.length + 1) .host) (writeCommand .init :: bodyAbc) State.reset).schedule =
      List.replicate (bodyAbc.length + 1) .host ∧
    (facing (List.replicate (bodyAbc.length + 1) .host) (writeCommand .init :: bodyAbc) State.reset).host =
      writeCommand .init :: bodyAbc ∧
    deliveredBy 0 0 bodyAbc = some [0x61, 0x62, 0x63] ∧ ([0x61, 0x62, 0x63] : List Byte).length ≤ 2 ^ 64 - 1 :=
  ⟨by decide, rfl, rfl, by decide, by decide⟩

theorem witness_PlacementFillsTheShiftGroups :
    (159 : Nat) < 160 ∧ (7 : Nat) < 8 ∧ (19 : Nat) < 20 ∧ shiftOf 29 = 7 ∧ alignIndex 29 = 19 := by decide

theorem witness_RotationIsOfTheLittleEndianBitString : (1 ≤ 1 ∧ 1 ≤ 7) ∧ (1 : Nat) ≤ 7 ∧ 7 ≤ 7 := by decide

theorem witness_RealignClosedForm : (159 : Nat) < 160 ∧ (7 : Nat) < 8 := by decide

theorem witness_InjectIsInjectiveInTheLength : (0 : Word64) ≠ BitVec.ofNat 64 (2 ^ 64 - 1) := by decide

theorem witness_InjectXorsTheLengthIntoBytesZeroToSeven :
    (0 : Nat) < 8 ∧ (7 : Nat) < 8 ∧ (8 ≤ 8 ∧ 8 < 20) ∧ 8 ≤ 19 ∧ 19 < 20 := by decide

theorem witness_DigestClosedForm :
    ([0x61, 0x62, 0x63] : List Byte).length ≤ 2 ^ 64 - 1 ∧ (0 : Nat) < 20 ∧ (19 : Nat) < 20 := by decide

/-- P2's delivery, with two turns of the engine in between. -/
theorem witness_DeliveryOfTheDigest :
    State.reset.engine.st ≠ .busy ∧
    (facing [.engine, .host, .engine] (writeCommand .init :: (bodyAbc ++ [writeCommand .final, waitDone])) State.reset).noReset ∧
    deliveredBy 0 0 bodyAbc = some [0x61, 0x62, 0x63] ∧ ([0x61, 0x62, 0x63] : List Byte).length ≤ 2 ^ 64 - 1 := by decide

/-- Two engines that differ in everything but CFG and the payload. -/
theorem witness_InitForgetsThePreviousRun :
    State.reset.engine.st ≠ .busy ∧ overflowed.engine.st ≠ .busy ∧
    State.reset.engine.compat = overflowed.engine.compat ∧ State.reset.engine.ie = overflowed.engine.ie ∧
    State.reset.engine.dataLo = overflowed.engine.dataLo ∧ State.reset.engine.dataHi = overflowed.engine.dataHi ∧
    (∃ t, exec .init State.reset = .next t) ∧ ∃ t, exec .init overflowed = .next t :=
  ⟨by decide, by decide, rfl, rfl, rfl, rfl, ⟨_, rfl⟩, ⟨_, rfl⟩⟩

/-- F7's payload against a clean one: they agree on byte 0. -/
theorem witness_PayloadBytesBeyondTheCountAreIgnored :
    (opened 0 0x61 0).engine =
      { (opened 0 0xFFFFFF61 0xFFFFFFFF).engine with
        dataLo := (opened 0 0x61 0).engine.dataLo, dataHi := (opened 0 0x61 0).engine.dataHi } ∧
    (∀ j, j < (0 : BitVec 3).toNat + 1 →
      (opened 0 0xFFFFFF61 0xFFFFFFFF).engine.payload.getD j 0 = (opened 0 0x61 0).engine.payload.getD j 0) ∧
    (∃ t, exec (.absorb 0) (opened 0 0xFFFFFF61 0xFFFFFFFF) = .next t) ∧ ∃ t, exec (.absorb 0) (opened 0 0x61 0) = .next t :=
  ⟨rfl, by decide, ⟨_, rfl⟩, ⟨_, rfl⟩⟩

/-- A busy engine with the invariant, and a step from it. -/
theorem witness_EveryStepKeepsTheInvariant :
    (inState .busy).engine.Inv ∧ Steps (facing [] [] (inState .busy)) :=
  ⟨⟨by decide, fun c h => (nomatch h), fun _ => ⟨rfl, rfl, rfl⟩, fun h => (nomatch h), fun h => (nomatch h),
    fun h => (nomatch h), fun h => (nomatch h), ⟨[], rfl, rfl⟩⟩, ⟨_, rfl⟩⟩

/-- A COMPLETE, a FAIL in compatible mode, and a step that keeps a valid sentinel, each from a state with the
invariant. -/
theorem witness_NoPartialDigestIsPresented :
    ((inState .busy).engine.Inv ∧ Steps (facing [] [] (inState .busy)) ∧ (facing [] [] (inState .busy)).completesNow) ∧
    (({ Engine.reset with compat := true, st := .absorb } : Engine).Inv ∧
      Steps (sending .fail { State.reset with engine := { Engine.reset with compat := true, st := .absorb } }) ∧
      (sending .fail { State.reset with engine := { Engine.reset with compat := true, st := .absorb } }).acceptsNow .fail) ∧
    (({ Engine.reset with compat := true } : Engine).failRun.Inv ∧
      Steps (sending .nop { State.reset with engine := ({ Engine.reset with compat := true } : Engine).failRun }) ∧
      ({ Engine.reset with compat := true } : Engine).failRun.dvalid = true) ∧
    State.reset.engine.dvalid = false ∧ (4 : Nat) < 5 :=
  ⟨⟨⟨by decide, fun c h => (nomatch h), fun _ => ⟨rfl, rfl, rfl⟩, fun h => (nomatch h), fun h => (nomatch h),
      fun h => (nomatch h), fun h => (nomatch h), ⟨[], rfl, rfl⟩⟩, ⟨_, rfl⟩, by decide⟩,
    ⟨⟨by decide, fun c h => (nomatch h), fun _ => ⟨rfl, rfl, rfl⟩, fun h => (nomatch h), fun h => (nomatch h),
      fun h => (nomatch h), fun h => (nomatch h), ⟨[], rfl, rfl⟩⟩, ⟨_, rfl⟩, by decide⟩,
    ⟨⟨by decide, fun c h => (nomatch h), fun h => absurd rfl h, fun _ h => (nomatch h), fun _ => ⟨rfl, rfl, rfl⟩,
      fun h => (nomatch h), fun h => (nomatch h), ⟨[], rfl, rfl⟩⟩, ⟨_, rfl⟩, rfl⟩, by decide⟩

theorem witness_AssemblerEncodesItsStatements :
    ((0 : Nat) = 0 ∨ 9 ≤ 0) ∧ ((9 : Nat) = 0 ∨ 9 ≤ 9) ∧ (0xFFC : BitVec 12).toNat % 4 = 0 ∧
    (0xFFF : BitVec 12).toNat % 4 ≠ 0 := by decide

/-- P5's beginning in two halves, and a half with an ABSORB 9. -/
theorem witness_PseudoInstructionsExpandToTheirAccesses :
    ((0 : Nat) = 0 ∨ 9 ≤ 0) ∧ ((9 : Nat) = 0 ∨ 9 ≤ 9) ∧
    assemble [.statement .init] = some [writeCommand .init] ∧
    assemble [.statement (.absorb 1), .statement .final] = some [writeCommand (.absorb 0), writeCommand .final] ∧
    assemble [.statement (.absorb 9)] = none := by decide

/-- P2's and P4c's CONFIG lines: W 0x004 <- 0x00000002 and 0x00000003. -/
theorem test_config :
    assemble [.pseudo (.config 0 1)] = some [wr .cfg 0x00000002] ∧
    assemble [.pseudo (.config 1 1)] = some [wr .cfg 0x00000003] := by decide

end Sys2Proof.Tests
end

section
/-! SUPPORT. What one step is to the engine, as data. Every statement on who writes an element of the engine speaks of
the same few events. `State.Performs` says which of them the next step is, `step_performs` that the step has its effect,
and under it each phrase of the statements (`nextTurn = .reset`, `completesNow`, `acceptsNow`, `writesNow`) is an
equation on the event. -/

namespace Sys2Proof.Machine

/-! ### Events and their effects -/

/-- What one step is to the engine. -/
inductive Event where
  /-- Reset (R132). -/
  | reset
  /-- COMPLETE where it is enabled (R105). -/
  | complete
  /-- No write, or one to a reserved offset (R30). -/
  | quiet
  /-- A write of a value to a register other than CMD (R108). -/
  | store (r : Register) (v : Reg32)
  /-- A CMD write of an ILLEGAL word (R115). -/
  | illegal
  /-- A command refused with SEQUENCE (R116). -/
  | refused (i : Instr)
  /-- An ABSORB refused with LENGTH_OVERFLOW (R117). -/
  | overflow (nm1 : BitVec 3)
  /-- A command that has its own effect (R99). -/
  | accepted (i : Instr)
  deriving DecidableEq

/-- The effect of a command that raises no error (R101, R102, R76, R104, R106). -/
def Engine.obey (i : Instr) (e : Engine) : Engine :=
  match i with
  | .nop => e
  | .init => e.openRun
  | .absorb nm1 => e.absorb (byteCount nm1)
  | .final => e.closeStream
  | .fail => e.failRun

/-- The effect of a write to a register other than CMD (R108). -/
def Engine.store (r : Register) (v : Reg32) (e : Engine) : Engine :=
  match r with
  | .cfg => e.writeCfg v
  | .dataLo => e.writeDataLo v
  | .dataHi => e.writeDataHi v
  | _ => e

/-- The effect of COMPLETE where it is enabled (R105). -/
def Engine.closeRun (e : Engine) : Engine := { e with dig := qxhDigest e.acc e.len, dvalid := true, st := .done }

/-- What an event does to the engine. -/
def Event.effect : Event → Engine → Engine
  | .reset, _ => Engine.reset
  | .complete, e => e.closeRun
  | .quiet, e => e
  | .store r v, e => e.store r v
  | .illegal, e => e.raise .illegalCmd
  | .refused _, e => e.raise .sequence
  | .overflow _, e => e.raise .lengthOverflow
  | .accepted i, e => e.obey i

@[simp] theorem Engine.store_acc (r : Register) (v : Reg32) (e : Engine) : (e.store r v).acc = e.acc := by
  cases r <;> rfl
@[simp] theorem Engine.store_len (r : Register) (v : Reg32) (e : Engine) : (e.store r v).len = e.len := by
  cases r <;> rfl
@[simp] theorem Engine.store_dig (r : Register) (v : Reg32) (e : Engine) : (e.store r v).dig = e.dig := by
  cases r <;> rfl
@[simp] theorem Engine.store_st (r : Register) (v : Reg32) (e : Engine) : (e.store r v).st = e.st := by
  cases r <;> rfl
@[simp] theorem Engine.store_dvalid (r : Register) (v : Reg32) (e : Engine) : (e.store r v).dvalid = e.dvalid := by
  cases r <;> rfl
@[simp] theorem Engine.store_srcerr (r : Register) (v : Reg32) (e : Engine) : (e.store r v).srcerr = e.srcerr := by
  cases r <;> rfl
@[simp] theorem Engine.store_firstErr (r : Register) (v : Reg32) (e : Engine) :
    (e.store r v).firstErr = e.firstErr := by cases r <;> rfl
@[simp] theorem Engine.store_flagOf (r : Register) (v : Reg32) (e : Engine) (c : ErrorCode) :
    (e.store r v).flagOf c = e.flagOf c := by cases r <;> rfl

@[simp] theorem Engine.closeRun_acc (e : Engine) : e.closeRun.acc = e.acc := by simp only [Engine.closeRun]
@[simp] theorem Engine.closeRun_len (e : Engine) : e.closeRun.len = e.len := by simp only [Engine.closeRun]
@[simp] theorem Engine.closeRun_dig (e : Engine) : e.closeRun.dig = qxhDigest e.acc e.len := rfl
@[simp] theorem Engine.closeRun_st (e : Engine) : e.closeRun.st = .done := by simp only [Engine.closeRun]
@[simp] theorem Engine.closeRun_dvalid (e : Engine) : e.closeRun.dvalid = true := by simp only [Engine.closeRun]
@[simp] theorem Engine.closeRun_srcerr (e : Engine) : e.closeRun.srcerr = e.srcerr := by simp only [Engine.closeRun]
@[simp] theorem Engine.closeRun_firstErr (e : Engine) : e.closeRun.firstErr = e.firstErr := by
  simp only [Engine.closeRun]
@[simp] theorem Engine.closeRun_ie (e : Engine) : e.closeRun.ie = e.ie := by simp only [Engine.closeRun]
@[simp] theorem Engine.closeRun_flagOf (e : Engine) (c : ErrorCode) : e.closeRun.flagOf c = e.flagOf c := by
  cases c <;> simp only [Engine.closeRun, Engine.flagOf]
@[simp] theorem Engine.closeRun_errCmd (e : Engine) : e.closeRun.errCmd = e.errCmd := e.closeRun_flagOf .illegalCmd
@[simp] theorem Engine.closeRun_errSeq (e : Engine) : e.closeRun.errSeq = e.errSeq := e.closeRun_flagOf .sequence
@[simp] theorem Engine.closeRun_errLen (e : Engine) : e.closeRun.errLen = e.errLen := e.closeRun_flagOf .lengthOverflow

/-- COMPLETE is `closeRun` in BUSY and nothing elsewhere (R105). -/
theorem Engine.complete_eq (e : Engine) : e.complete = if e.st = .busy then e.closeRun else e := rfl

/-! ### Commands, words and writes -/

@[simp] theorem legality_nop (st : RunState) (b : Bool) : legality .nop st b = some st := by
  cases st <;> rfl

@[simp] theorem legality_init_eq_none_iff (st : RunState) (b : Bool) : legality .init st b = none ↔ st = .busy := by
  cases st <;> simp [legality]

@[simp] theorem legality_absorb_eq_none_iff (nm1 : BitVec 3) (st : RunState) (b : Bool) :
    legality (.absorb nm1) st b = none ↔ st ≠ .absorb := by
  cases st <;> simp [legality]

@[simp] theorem legality_final_eq_none_iff (st : RunState) (b : Bool) :
    legality .final st b = none ↔ st ≠ .absorb ∨ b = true := by
  cases st <;> cases b <;> simp [legality]

@[simp] theorem legality_fail_eq_none_iff (st : RunState) (b : Bool) : legality .fail st b = none ↔ st = .busy := by
  cases st <;> simp [legality]

/-- A word decodes to the command it encodes. -/
theorem decode_encode (i : Instr) : decode (encode i) = .command i := by
  cases i with
  | absorb nm1 => revert nm1; decide
  | _ => decide

/-- A word is made of its fields RSV, NM1 and OP (R60). -/
theorem eq_append_fields (v : Reg32) : v = rsvField v ++ nm1Field v ++ opField v := by
  refine BitVec.eq_of_getLsbD_eq fun k hk => ?_
  simp only [BitVec.getLsbD_append, BitVec.getLsbD_extractLsb']
  by_cases h4 : k < 4
  · simp [h4]
  · by_cases h7 : k - 4 < 3
    · simp [h4, h7, Nat.add_sub_cancel' (Nat.le_of_not_lt h4)]
    · have hk7 : 7 + (k - 4 - 3) = k := by omega
      have h25 : k - 4 - 3 < 25 := by omega
      simp [h4, h7, h25, hk7]

/-- A word that decodes to a command is its encoding (R60 to R62). -/
theorem encode_of_decode {v : Reg32} {i : Instr} (h : decode v = .command i) : v = encode i := by
  rw [eq_append_fields v]
  unfold decode at h
  generalize rsvField v = rsv, nm1Field v = nm1, opField v = op at h ⊢
  split_ifs at h <;> cases h <;> simp_all [encode, commandWord]

/-- Two commands have two words. -/
theorem encode_injective {i j : Instr} (h : encode i = encode j) : i = j := by
  have := decode_encode i
  rw [h, decode_encode] at this
  cases this
  rfl

/-- Two registers have two offsets. -/
theorem Register.offset_injective {r r' : Register} (h : r.offset = r'.offset) : r = r' := by
  have := registerAt_offset r
  rw [h, registerAt_offset] at this
  cases this
  rfl

/-- A write that is performed is an accepted access at the host's turn (R41). -/
theorem State.writeNow_eq_some {s : State} {off : BitVec 12} {v : Reg32} (h : s.writeNow = some (off, v)) :
    s.nextTurn = .host ∧ off.toNat % 4 = 0 := by
  unfold State.writeNow at h
  split at h
  · split at h
    · cases h
      exact ⟨‹_›, ((Access.accepted_iff _).1 ‹_›).2.1⟩
    · cases h
  · cases h

/-! ### The event of a step -/

/-- The event of the next step: which agent moves, which write it performs, and how the engine meets a command (R99,
R105, R108, R113, R132). -/
inductive State.Performs (s : State) : Event → Prop where
  /-- Reset moves next. -/
  | reset (turn : s.nextTurn = .reset) : s.Performs .reset
  /-- The completion agent moves next, in BUSY. -/
  | complete (turn : s.completesNow) : s.Performs .complete
  /-- No register is written, and neither of the other two agents acts. -/
  | quiet (noReset : s.nextTurn ≠ .reset) (noComplete : ¬ s.completesNow) (noWrite : ∀ r v, ¬ s.writesNow r v) :
    s.Performs .quiet
  /-- The host writes a register other than CMD. -/
  | store {r : Register} {v : Reg32} (notCmd : r ≠ .cmd) (write : s.writesNow r v) : s.Performs (.store r v)
  /-- The host writes a word to CMD that is no command's. -/
  | illegal {v : Reg32} (write : s.writesNow .cmd v) (noCommand : ∀ i, v ≠ encode i) : s.Performs .illegal
  /-- The host writes a command that the legality table refuses. -/
  | refused {i : Instr} (write : s.commandsNow i) (noEntry : legality i s.engine.st s.engine.errLen = none) :
    s.Performs (.refused i)
  /-- The host writes a legal ABSORB that exceeds the range of LEN. -/
  | overflow {nm1 : BitVec 3} (accept : s.acceptsNow (.absorb nm1))
    (exceeds : 2 ^ 64 - 1 < s.engine.len.toNat + byteCount nm1) : s.Performs (.overflow nm1)
  /-- The host writes a legal command, which fits LEN if it is an ABSORB. -/
  | accepted {i : Instr} (accept : s.acceptsNow i)
    (fits : ∀ nm1, i = .absorb nm1 → s.engine.len.toNat + byteCount nm1 ≤ 2 ^ 64 - 1) : s.Performs (.accepted i)

/-- A command written to CMD is an event of the step, with its effect (R99, R113). -/
theorem performs_command {i : Instr} {s u t : State} (hw : s.commandsNow i) (hu : u.engine = s.engine)
    (h : exec i u = .next t) : ∃ ev, s.Performs ev ∧ t.engine = ev.effect s.engine := by
  have fits : ∀ nm1, s.engine.lengthOverflows (byteCount nm1) = false →
      s.engine.len.toNat + byteCount nm1 ≤ 2 ^ 64 - 1 := fun nm1 h =>
    Nat.le_of_not_lt fun hlt => by simp [(lengthOverflows_iff _ _ (byteCount_le nm1)).2 hlt] at h
  have raised : ∀ c, (u.raise c).engine = s.engine.raise c := fun c => by rw [State.raise_engine, hu]
  have cases := exec_cases h
  rw [hu] at cases
  rcases cases with ⟨rfl, rfl⟩ | ⟨rfl, hst, rfl⟩ | ⟨rfl, hst, rfl⟩ | ⟨nm1, rfl, hst, ho, rfl⟩ |
    ⟨nm1, rfl, hst, ho, rfl⟩ | ⟨nm1, rfl, hst, rfl⟩ | ⟨rfl, hst, hl, rfl⟩ | ⟨rfl, hst, rfl⟩ | ⟨rfl, hst, rfl⟩ |
    ⟨rfl, hst, rfl⟩
  · exact ⟨.accepted .nop, .accepted ⟨hw, by simp⟩ nofun, hu⟩
  · exact ⟨.accepted .init, .accepted ⟨hw, by simpa using hst⟩ nofun, rfl⟩
  · exact ⟨.refused .init, .refused hw (by simpa using hst), raised _⟩
  · refine ⟨.accepted (.absorb nm1), .accepted ⟨hw, by simpa using hst⟩ fun n hn => ?_, rfl⟩
    cases hn
    exact fits nm1 ho
  · exact ⟨.overflow nm1, .overflow ⟨hw, by simpa using hst⟩ ((lengthOverflows_iff _ _ (byteCount_le nm1)).1 ho),
      raised _⟩
  · exact ⟨.refused (.absorb nm1), .refused hw (by simpa using hst), raised _⟩
  · exact ⟨.accepted .final, .accepted ⟨hw, by simp [hst, hl]⟩ nofun, rfl⟩
  · exact ⟨.refused .final, .refused hw (by simpa [imp_iff_not_or] using hst), raised _⟩
  · exact ⟨.accepted .fail, .accepted ⟨hw, by simpa using hst⟩ nofun, rfl⟩
  · exact ⟨.refused .fail, .refused hw (by simpa using hst), raised _⟩

/-- A register write is an event of the step, with its effect (R99, R108). -/
theorem performs_write {off : BitVec 12} {v : Reg32} {s u t : State} (hw : s.writeNow = some (off, v))
    (hu : u.engine = s.engine) (h : regWrite off v u = .next t) :
    ∃ ev, s.Performs ev ∧ t.engine = ev.effect s.engine := by
  obtain ⟨ht, h4⟩ := State.writeNow_eq_some hw
  have stored : ∀ {r}, registerAt off = some r → r ≠ .cmd → t.engine = s.engine.store r v →
      ∃ ev, s.Performs ev ∧ t.engine = ev.effect s.engine := fun hr hc he =>
    ⟨.store _ v, .store hc (hw.trans (by rw [offset_of_registerAt h4 hr])), he⟩
  rcases regWrite_cases h with ⟨hr, hc⟩ | ⟨hr, rfl⟩ | ⟨hr, rfl⟩ | ⟨hr, rfl⟩ | ⟨hcmd, hcfg, hlo, hhi, rfl⟩
  · obtain rfl := offset_of_registerAt h4 hr
    rcases commandWrite_cases hc with ⟨i, hd, hx⟩ | ⟨reason, hd, rfl⟩
    · obtain rfl := encode_of_decode hd
      exact performs_command hw hu hx
    · refine ⟨.illegal, .illegal hw fun i hi => ?_, by simp [hu, Event.effect]⟩
      simp [hi, decode_encode] at hd
  · exact stored hr (by decide) (by rw [hu]; rfl)
  · exact stored hr (by decide) (by rw [hu]; rfl)
  · exact stored hr (by decide) (by rw [hu]; rfl)
  · rcases hr : registerAt off with _ | r
    · refine ⟨.quiet, .quiet (by simp [ht]) (by simp [ht]) (fun r v' hw' => ?_), hu⟩
      obtain rfl : off = r.offset := congrArg Prod.fst (Option.some.inj (hw.symm.trans hw'))
      simp at hr
    · refine stored hr (fun hc => hcmd (hc ▸ hr)) (hu.trans ?_)
      cases r with
      | cfg => exact absurd hr hcfg
      | dataLo => exact absurd hr hlo
      | dataHi => exact absurd hr hhi
      | _ => rfl

/-- Every step is an event, with its effect on the engine. -/
theorem step_performs {s t : State} (h : step s = .next t) :
    ∃ ev, s.Performs ev ∧ t.engine = ev.effect s.engine := by
  rcases step_engine_cases h with ⟨ht, hw, he⟩ | ⟨ht, hw, he⟩ | ⟨ht, hw, he⟩ | ⟨off, v, u, ht, hw, -, hu, hr⟩
  · exact ⟨.reset, .reset ht, he⟩
  · by_cases hb : s.engine.st = .busy
    · exact ⟨.complete, .complete ⟨ht, hb⟩, by rw [he, Engine.complete_eq, if_pos hb, Event.effect]⟩
    · exact ⟨.quiet, .quiet (by simp [ht]) (by simp [hb]) (by simp [hw]),
        by rw [he, Engine.complete_eq, if_neg hb, Event.effect]⟩
  · exact ⟨.quiet, .quiet (by simp [ht]) (by simp [ht]) (by simp [hw]), he⟩
  · exact performs_write hw hu hr

/-! ### The statements' phrases as equations on the event -/

/-- A write to a register comes at the host's turn. -/
theorem State.nextTurn_of_writesNow {s : State} {r : Register} {v : Reg32} (h : s.writesNow r v) :
    s.nextTurn = .host :=
  (State.writeNow_eq_some h).1

/-- A step writes one register, once. -/
theorem State.writesNow_unique {s : State} {r r' : Register} {v v' : Reg32} (h : s.writesNow r v)
    (h' : s.writesNow r' v') : r = r' ∧ v = v' := by
  have := h.symm.trans h'
  simp only [Option.some.injEq, Prod.mk.injEq] at this
  exact ⟨Register.offset_injective this.1, this.2⟩

/-- A step performs one command at most. -/
theorem State.commandsNow_unique {s : State} {i j : Instr} (h : s.commandsNow i) (h' : s.commandsNow j) : i = j :=
  encode_injective (State.writesNow_unique h h').2

namespace State.Performs

variable {s : State} {ev : Event}

/-- A reset is the reset input's turn. -/
theorem nextTurn_eq_reset_iff (p : s.Performs ev) : s.nextTurn = .reset ↔ ev = .reset := by
  cases p with
  | reset turn => simp [turn]
  | complete turn => simp [turn.1]
  | quiet noReset => simp [noReset]
  | store _ write | illegal write _ | refused write _ => simp [State.nextTurn_of_writesNow write]
  | overflow accept _ | accepted accept _ => simp [State.nextTurn_of_writesNow accept.1]

/-- A COMPLETE is the completion agent's turn in BUSY. -/
theorem completesNow_iff (p : s.Performs ev) : s.completesNow ↔ ev = .complete := by
  cases p with
  | reset turn => simp [turn]
  | complete turn => simpa using turn
  | quiet _ noComplete => simpa using noComplete
  | store _ write | illegal write _ | refused write _ => simp [State.nextTurn_of_writesNow write]
  | overflow accept _ | accepted accept _ => simp [State.nextTurn_of_writesNow accept.1]

/-- A write to a plain register is that register's store. -/
theorem writesNow_iff (p : s.Performs ev) {r : Register} (hr : r ≠ .cmd) (v : Reg32) :
    s.writesNow r v ↔ ev = .store r v := by
  have noHost : s.nextTurn ≠ .host → ¬ s.writesNow r v := fun h hw => h (State.nextTurn_of_writesNow hw)
  have noCmd : ∀ w, s.writesNow .cmd w → ¬ s.writesNow r v := fun w h hw => hr (State.writesNow_unique hw h).1
  cases p with
  | reset turn => simpa using noHost (by simp [turn])
  | complete turn => simpa using noHost (by simp [turn.1])
  | quiet _ _ noWrite => simpa using noWrite r v
  | store _ write =>
    simp only [Event.store.injEq]
    exact ⟨fun hw => State.writesNow_unique write hw, fun ⟨h1, h2⟩ => h1 ▸ h2 ▸ write⟩
  | illegal write _ | refused write _ => simpa using noCmd _ write
  | overflow accept _ | accepted accept _ => simpa using noCmd _ accept.1

/-- An accepted command has its own effect, or is an ABSORB that overflows. -/
theorem acceptsNow_iff (p : s.Performs ev) (i : Instr) :
    s.acceptsNow i ↔ ev = .accepted i ∨ ∃ nm1, i = .absorb nm1 ∧ ev = .overflow nm1 := by
  have noHost : s.nextTurn ≠ .host → ¬ s.acceptsNow i := fun h hi => h (State.nextTurn_of_writesNow hi.1)
  have same : ∀ {j}, s.acceptsNow j → (s.acceptsNow i ↔ j = i) := fun hj =>
    ⟨fun hi => State.commandsNow_unique hj.1 hi.1, fun h => h ▸ hj⟩
  cases p with
  | reset turn => simpa using noHost (by simp [turn])
  | complete turn => simpa using noHost (by simp [turn.1])
  | quiet _ _ noWrite => simpa using fun h => absurd h (noWrite _ _)
  | store notCmd write => simpa using fun h => absurd (State.writesNow_unique write h).1 notCmd
  | illegal write noCommand => simpa using fun h => absurd (State.writesNow_unique write h).2 (noCommand i)
  | refused write noEntry => simpa using fun h => State.commandsNow_unique write h ▸ noEntry
  | overflow accept _ => rw [same accept]; simp [eq_comm]
  | accepted accept _ => rw [same accept]; simp

theorem acceptsNow_init_iff (p : s.Performs ev) : s.acceptsNow .init ↔ ev = .accepted .init := by
  simp [p.acceptsNow_iff]

theorem acceptsNow_fail_iff (p : s.Performs ev) : s.acceptsNow .fail ↔ ev = .accepted .fail := by
  simp [p.acceptsNow_iff]

end State.Performs

end Sys2Proof.Machine
end

section
/-! SUPPORT. What an event does to each element of the engine: the error flags, the fields the host writes, LEN. -/

namespace Sys2Proof.Machine

@[simp] theorem Engine.reset_dvalid : Engine.reset.dvalid = false := rfl
@[simp] theorem Engine.reset_srcerr : Engine.reset.srcerr = false := rfl
@[simp] theorem Engine.reset_firstErr : Engine.reset.firstErr = none := rfl
@[simp] theorem Engine.reset_flagOf (c : ErrorCode) : Engine.reset.flagOf c = false := by cases c <;> rfl

@[simp] theorem Engine.raise_flagOf (c c' : ErrorCode) (e : Engine) :
    (e.raise c).flagOf c' = (e.flagOf c' || c == c') := by
  cases c' <;> rfl
@[simp] theorem Engine.openRun_flagOf (e : Engine) (c : ErrorCode) : e.openRun.flagOf c = false := by cases c <;> rfl
@[simp] theorem Engine.absorb_flagOf (e : Engine) (n : Nat) (c : ErrorCode) : (e.absorb n).flagOf c = e.flagOf c := by
  cases c <;> rfl
@[simp] theorem Engine.closeStream_flagOf (e : Engine) (c : ErrorCode) : e.closeStream.flagOf c = e.flagOf c := by
  cases c <;> rfl
@[simp] theorem Engine.failRun_flagOf (e : Engine) (c : ErrorCode) : e.failRun.flagOf c = e.flagOf c := by
  cases c <;> rfl

/-- What an event does to the errors: reset and an accepted INIT clear them, an error is recorded, anything else leaves
them (R23, R24). -/
theorem Event.effect_errors (ev : Event) (e : Engine) :
    ((ev = .reset ∨ ev = .accepted .init) ∧ (ev.effect e).firstErr = none ∧ ∀ c, (ev.effect e).flagOf c = false) ∨
    (¬ (ev = .reset ∨ ev = .accepted .init) ∧ ∃ c, ev.effect e = e.raise c) ∨
    (¬ (ev = .reset ∨ ev = .accepted .init) ∧ (ev.effect e).firstErr = e.firstErr ∧
      ∀ c, (ev.effect e).flagOf c = e.flagOf c) := by
  cases ev with
  | illegal | refused | overflow => exact .inr (.inl ⟨by simp, _, rfl⟩)
  | accepted i => cases i <;> simp [Event.effect, Engine.obey]
  | _ => simp [Event.effect]

/-- The fields that the host writes by plain registers: CFG and the payload (R17, R26). -/
def Engine.hostFields (e : Engine) : Bool × Bool × Reg32 × Reg32 := (e.compat, e.ie, e.dataLo, e.dataHi)

theorem Engine.store_compat_of_ne {r : Register} (hr : r ≠ .cfg) {v : Reg32} {e : Engine} :
    (e.store r v).compat = e.compat := by
  cases r with
  | cfg => exact absurd rfl hr
  | _ => rfl

theorem Engine.store_ie_of_ne {r : Register} (hr : r ≠ .cfg) {v : Reg32} {e : Engine} :
    (e.store r v).ie = e.ie := by
  cases r with
  | cfg => exact absurd rfl hr
  | _ => rfl

theorem Engine.store_dataLo_of_ne {r : Register} (hr : r ≠ .dataLo) {v : Reg32} {e : Engine} :
    (e.store r v).dataLo = e.dataLo := by
  cases r with
  | dataLo => exact absurd rfl hr
  | _ => rfl

theorem Engine.store_dataHi_of_ne {r : Register} (hr : r ≠ .dataHi) {v : Reg32} {e : Engine} :
    (e.store r v).dataHi = e.dataHi := by
  cases r with
  | dataHi => exact absurd rfl hr
  | _ => rfl

/-- No command and no COMPLETE writes CFG or the payload (R17, R26). -/
theorem Event.effect_hostFields {ev : Event} (hreset : ev ≠ .reset) (hstore : ∀ r v, ev ≠ .store r v) (e : Engine) :
    (ev.effect e).hostFields = e.hostFields := by
  cases ev with
  | reset => exact absurd rfl hreset
  | store r v => exact absurd rfl (hstore r v)
  | accepted i => cases i <;> rfl
  | complete => simp only [Event.effect, Engine.closeRun, Engine.hostFields]
  | _ => rfl

/-- An ABSORB that fits does not wrap LEN (R32). -/
theorem Engine.toNat_absorb_len {e : Engine} {n : Nat} (hfit : e.len.toNat + n ≤ 2 ^ 64 - 1) :
    (e.absorb n).len.toNat = e.len.toNat + n := by
  rw [Engine.absorb_len, BitVec.toNat_add, BitVec.toNat_ofNat]
  omega

/-- A command has its own effect on the engine, or records an error (R99, R113). -/
theorem exec_engine {i : Instr} {s t : State} (h : exec i s = .next t) :
    t.engine = s.engine.obey i ∨ ∃ c, t.engine = s.engine.raise c := by
  rcases exec_cases h with ⟨rfl, rfl⟩ | ⟨rfl, -, rfl⟩ | ⟨-, -, rfl⟩ | ⟨_, rfl, -, -, rfl⟩ | ⟨_, -, -, -, rfl⟩ |
    ⟨_, -, -, rfl⟩ | ⟨rfl, -, -, rfl⟩ | ⟨-, -, rfl⟩ | ⟨rfl, -, rfl⟩ | ⟨-, -, rfl⟩
  exacts [.inl rfl, .inl rfl, .inr ⟨_, rfl⟩, .inl rfl, .inr ⟨_, rfl⟩, .inr ⟨_, rfl⟩, .inl rfl, .inr ⟨_, rfl⟩,
    .inl rfl, .inr ⟨_, rfl⟩]

end Sys2Proof.Machine
end

section
/-! SUPPORT. What each register reads (10_state.md R19 to R30), and what a command leaves of it. -/

namespace Sys2Proof.Machine

/-! ### STATUS, the interrupt output and the payload -/

/-- The bits of STATUS (R19). -/
theorem Engine.getLsbD_statusWord (e : Engine) (k : Nat) :
    e.statusWord.getLsbD k =
      match k with
      | 0 => e.st.code.getLsbD 0
      | 1 => e.st.code.getLsbD 1
      | 2 => e.dvalid
      | 3 => e.srcerr
      | 4 => e.errCmd
      | 5 => e.errSeq
      | 6 => e.errLen
      | 7 => e.irq
      | 8 => e.firstErrCode.getLsbD 0
      | 9 => e.firstErrCode.getLsbD 1
      | _ => false := by
  simp only [Engine.statusWord, BitVec.getLsbD_append, bit]
  match k with
  | 0 | 1 | 2 | 3 | 4 | 5 | 6 | 7 | 8 | 9 => simp
  | k + 10 => simp

/-- FIRST_ERR stands in STATUS[9:8] (R19). -/
theorem Engine.statusWord_firstErr (e : Engine) : e.statusWord.extractLsb' 8 2 = e.firstErrCode := by
  refine BitVec.eq_of_getLsbD_eq fun k hk => ?_
  rw [BitVec.getLsbD_extractLsb', e.getLsbD_statusWord]
  interval_cases k <;> simp

/-- STATE stands in STATUS[1:0] (R19). -/
theorem Engine.statusWord_st (e : Engine) : e.statusWord.extractLsb' 0 2 = e.st.code := by
  refine BitVec.eq_of_getLsbD_eq fun k hk => ?_
  rw [BitVec.getLsbD_extractLsb', e.getLsbD_statusWord]
  interval_cases k <;> simp

/-- STATUS[31:10] reads 0 (R19). -/
theorem Engine.statusWord_reserved (e : Engine) : e.statusWord.extractLsb' 10 22 = 0 := by
  refine BitVec.eq_of_getLsbD_eq fun k hk => ?_
  rw [BitVec.getLsbD_extractLsb', e.getLsbD_statusWord, Nat.add_comm]
  simp

/-- The interrupt output is a level: enabled, and the run closed or an error flag set (R36). -/
theorem Engine.irq_eq_true_iff (e : Engine) :
    e.irq = true ↔ e.ie = true ∧ (e.st = .done ∨ ∃ c, e.flagOf c = true) := by
  have flags : (∃ c, e.flagOf c = true) ↔ e.errCmd = true ∨ e.errSeq = true ∨ e.errLen = true :=
    ⟨fun ⟨c, h⟩ => by cases c <;> simp_all [Engine.flagOf],
     fun h => by rcases h with h | h | h; exacts [⟨.illegalCmd, h⟩, ⟨.sequence, h⟩, ⟨.lengthOverflow, h⟩]⟩
  simp [Engine.irq, flags, or_assoc]

/-- Payload byte j is lane j of DATA_LO, then of DATA_HI (R26). -/
theorem getD_payload (e : Engine) (j : Nat) (h : j < 8) :
    e.payload.getD j 0 = if j < 4 then byteAt e.dataLo j else byteAt e.dataHi (j - 4) := by
  interval_cases j <;> rfl

/-! ### The digest and accumulator windows, and the reserved offsets -/

/-- The read at the offset of DIGESTk (R15). -/
theorem regRead_digest (e : Engine) (k : Nat) (hk : k < 5) :
    regRead e (BitVec.ofNat 12 (0x020 + 4 * k)) = e.digestWord k :=
  regRead_offset e (.digest ⟨k, hk⟩)

/-- The read at the offset of ACCm (R15). -/
theorem regRead_acc (e : Engine) (m : Nat) (hm : m < 40) :
    regRead e (BitVec.ofNat 12 (0x100 + 4 * m)) = e.accWord m :=
  regRead_offset e (.acc ⟨m, hm⟩)

/-- With DVALID = 0 no digest byte shows (R28). -/
theorem Engine.digestWord_of_invalid {e : Engine} (h : e.dvalid = false) (k : Nat) : e.digestWord k = 0 := by
  simp [Engine.digestWord, h]

/-- Lane j of a word packed from four bytes. -/
theorem byteAt_packLE_four (f : Nat → Byte) (j : Nat) (hj : j < 4) :
    byteAt (packLE 32 [f 0, f 1, f 2, f 3]) j = f j := by
  rw [byteAt_packLE _ _ _ (by omega)]
  interval_cases j <;> rfl

/-- Lane j of ACCm is accb[4m + j] (R29). -/
theorem Engine.byteAt_accWord (e : Engine) (m j : Nat) (hj : j < 4) :
    byteAt (e.accWord m) j = accByte e.acc (4 * m + j) :=
  byteAt_packLE_four (fun j => accByte e.acc (4 * m + j)) j hj

/-- A byte of a 32-bit half of a word. -/
theorem byteAt_half {w : Nat} (v : BitVec w) (q j : Nat) (hj : j < 4) :
    byteAt (v.extractLsb' (32 * q) 32) j = byteAt v (4 * q + j) := by
  refine BitVec.eq_of_getLsbD_eq fun k hk => ?_
  have h1 : 32 * q + (8 * j + k) = 8 * (4 * q + j) + k := by omega
  have h2 : 8 * j + k < 32 := by omega
  simp [h1, h2]

/-- The word indices that name no register (R15, R30). -/
theorem registerAt_eq_none_iff (off : BitVec 12) :
    registerAt off = none ↔ (13 ≤ off.toNat / 4 ∧ off.toNat / 4 ≤ 63) ∨ 104 ≤ off.toNat / 4 := by
  unfold registerAt
  generalize off.toNat / 4 = q
  split
  case h_9 h0 h1 h2 h3 h4 h5 h6 h7 =>
    simp only [imp_false] at h0 h1 h2 h3 h4 h5 h6 h7
    by_cases hd : 8 ≤ q ∧ q ≤ 12
    · simp only [dif_pos hd, reduceCtorEq, false_iff]
      omega
    · by_cases ha : 64 ≤ q ∧ q ≤ 103
      · simp only [dif_neg hd, dif_pos ha, reduceCtorEq, false_iff]
        omega
      · simp only [dif_neg hd, dif_neg ha, true_iff]
        omega
  all_goals simp

/-- A reserved offset reads 0 (R30). -/
theorem regRead_reserved {off : BitVec 12} (h : registerAt off = none) (e : Engine) : regRead e off = 0 := by
  simp only [regRead, h]

/-- A write to a reserved offset is ignored (R30). -/
theorem regWrite_reserved {off : BitVec 12} (h : registerAt off = none) (v : Reg32) (s : State) :
    regWrite off v s = .next s := by
  simp only [regWrite, h]

/-- Every register but ID reads 0 after reset (R37). -/
theorem Register.read_reset (r : Register) (h : r ≠ .id) : r.read Engine.reset = 0 := by
  cases r with
  | id => exact absurd rfl h
  | digest k => exact Engine.digestWord_of_invalid rfl k
  | acc m =>
    refine eq_of_byteAt_eq fun j hj => ?_
    rw [Register.read, Engine.byteAt_accWord _ _ _ (by omega)]
    simp
  | _ => decide

/-! ### What an error or a command leaves of a read -/

/-- A read depends on the offset's register alone. -/
theorem regRead_congr {e e' : Engine} {off : BitVec 12}
    (h : ∀ r, registerAt off = some r → r.read e' = r.read e) : regRead e' off = regRead e off := by
  unfold regRead
  split
  · exact h _ ‹_›
  · rfl

/-- An error shows in STATUS alone (R113). -/
theorem Register.read_raise (r : Register) (h : r ≠ .status) (c : ErrorCode) (e : Engine) :
    r.read (e.raise c) = r.read e := by
  cases r with
  | status => exact absurd rfl h
  | _ => rfl

/-- FINAL shows in STATUS alone (R104). -/
theorem Register.read_closeStream (r : Register) (h : r ≠ .status) (e : Engine) :
    r.read e.closeStream = r.read e := by
  cases r with
  | status => exact absurd rfl h
  | _ => rfl

/-- An ABSORB leaves the Accumulator's bytes away from the positions it absorbs at (R76). -/
theorem accByte_absorbBytes_of_away {a : Acc} {len i : Nat} {bs : List Byte}
    (h : ∀ j, j < bs.length → (len + j) % 160 ≠ i) : accByte (absorbBytes a len bs) i = accByte a i := by
  rw [accByte_absorbBytes]
  have hfold := List.foldl_ext (fun (b : Byte) j => if (len + j) % 160 = i then b ^^^ bs.getD j 0 else b)
    (fun b _ => b) 0 (l := List.range bs.length) fun b j hj => if_neg (h j (List.mem_range.1 hj))
  rw [hfold, List.foldl_fixed]
  simp

/-- An accepted ABSORB shows in STATUS, LEN and the ACC registers it absorbs at (R76). -/
theorem Register.read_absorb {r : Register} {n : Nat} {e : Engine} (hn : n ≤ 8)
    (hs : r ≠ .status) (hlo : r ≠ .lenLo) (hhi : r ≠ .lenHi)
    (hacc : ∀ m, r = .acc m → ∀ j, j < n → (e.len.toNat + j) % 160 / 4 ≠ m.val) :
    r.read (e.absorb n) = r.read e := by
  cases r with
  | status => exact absurd rfl hs
  | lenLo => exact absurd rfl hlo
  | lenHi => exact absurd rfl hhi
  | acc m =>
    refine eq_of_byteAt_eq fun j hj => ?_
    have haway : ∀ k, k < (e.operand n).length → (e.len.toNat + k) % 160 ≠ 4 * m.val + j := fun k hk => by
      rw [length_operand e n hn] at hk
      have := hacc m rfl k hk
      omega
    simp only [Register.read]
    rw [Engine.byteAt_accWord _ _ _ (by omega), Engine.byteAt_accWord _ _ _ (by omega), Engine.absorb_acc,
      accByte_absorbBytes_of_away haway]
  | _ => rfl

/-- ID, CFG, CMD, and the payload registers read from no field that a command writes (R15). -/
theorem Register.read_eq_of_hostFields {r : Register} (hr : r ∈ ([.id, .cfg, .cmd, .dataLo, .dataHi] : List Register))
    {e e' : Engine} (h : e'.hostFields = e.hostFields) : r.read e' = r.read e := by
  simp only [Engine.hostFields, Prod.mk.injEq] at h
  obtain ⟨hc, hi, hlo, hhi⟩ := h
  simp only [List.mem_cons, List.not_mem_nil, or_false] at hr
  rcases hr with rfl | rfl | rfl | rfl | rfl <;> simp only [Register.read, Engine.cfgWord, hc, hi, hlo, hhi]

end Sys2Proof.Machine
end

section
/-! PROOFS. Who writes each element of the engine, over every step: each statement is read off the events. -/

namespace Sys2Proof.Machine

/-! ### The run's elements -/

/-- Settles O16. -/
theorem writersOfDvalidAndSrcerr : Obligations.WritersOfDvalidAndSrcerr := by
  intro s t h
  obtain ⟨ev, p, he⟩ := step_performs h
  simp only [p.nextTurn_eq_reset_iff, p.completesNow_iff, p.acceptsNow_init_iff, p.acceptsNow_fail_iff, he]
  cases ev with
  | accepted i => cases i <;> simp [Event.effect, Engine.obey]
  | _ => simp [Event.effect]

/-- Settles O20: an ABSORB that is accepted fits, so its sum does not wrap. -/
theorem writersOfLenAndNoWrap : Obligations.WritersOfLenAndNoWrap := by
  intro s t h
  obtain ⟨ev, p, he⟩ := step_performs h
  simp only [p.nextTurn_eq_reset_iff, p.acceptsNow_iff, he]
  cases p with
  | overflow accept exceeds =>
    simp only [byteCount] at exceeds
    simpa [Event.effect] using exceeds
  | @accepted i accept fits =>
    cases i with
    | absorb nm1 =>
      have hfit := fits nm1 rfl
      refine ⟨by simp, fun n hn _ => ?_, fun ⟨_, hover⟩ => ?_⟩
      · obtain rfl : nm1 = n := by simpa using hn
        exact Engine.toNat_absorb_len hfit
      · exact absurd (hover nm1 (.inl rfl)) (Nat.not_lt.2 hfit)
    | _ => simp [Event.effect, Engine.obey]
  | _ => simp [Event.effect]

/-- Settles O21. -/
theorem writersOfTheAccumulator : Obligations.WritersOfTheAccumulator := by
  intro s t h
  obtain ⟨ev, p, he⟩ := step_performs h
  simp only [p.nextTurn_eq_reset_iff, p.acceptsNow_iff, he]
  cases p with
  | @accepted i accept fits =>
    cases i with
    | absorb nm1 => exact ⟨by simp, fun _ => .inr (.inr (.inr ⟨nm1, .inl rfl, fits nm1 rfl⟩))⟩
    | _ => simp [Event.effect, Engine.obey, Acc.zero]
  | _ => simp [Event.effect, Acc.zero]

/-- Settles O22. -/
theorem writersOfDig : Obligations.WritersOfDig := by
  refine ⟨fun s t h => ?_, fun e d off hoff => ?_⟩
  · obtain ⟨ev, p, he⟩ := step_performs h
    simp only [p.nextTurn_eq_reset_iff, p.completesNow_iff, p.acceptsNow_init_iff, p.acceptsNow_fail_iff, he]
    cases ev with
    | accepted i => cases i <;> simp [Event.effect, Engine.obey, Block.zero]
    | _ => simp [Event.effect, Block.zero]
  · unfold regRead
    rcases hr : registerAt off with _ | r
    · rfl
    · cases r with
      | digest k => exact absurd hr (hoff k)
      | _ => rfl

/-! ### The errors and the interrupt -/

/-- Settles O17. -/
theorem errorFlagsAreSticky : Obligations.ErrorFlagsAreSticky := by
  refine ⟨fun s c => by simp, fun s t c h => ?_⟩
  obtain ⟨ev, p, he⟩ := step_performs h
  simp only [p.nextTurn_eq_reset_iff, p.acceptsNow_init_iff, he]
  rcases ev.effect_errors s.engine with ⟨hc, -, hf⟩ | ⟨hc, c', hr⟩ | ⟨hc, -, hf⟩
  · simp [hc, hf]
  · refine ⟨fun hset => by simp [if_neg hc, hr, hset], fun hclear hset => ?_⟩
    have hcode : c' = c := by simpa [hr, hclear] using hset
    rw [hr, hcode]
  · refine ⟨fun hset => by rw [if_neg hc, hf, hset], fun hclear hset => ?_⟩
    simp [hf, hclear] at hset

/-- Settles O18. -/
theorem firstErrKeepsTheFirstError : Obligations.FirstErrKeepsTheFirstError := by
  refine ⟨fun s c h => by simp [h], fun s t h => ?_, fun e => ?_⟩
  · obtain ⟨ev, p, he⟩ := step_performs h
    simp only [p.nextTurn_eq_reset_iff, p.acceptsNow_init_iff, he]
    rcases ev.effect_errors s.engine with ⟨hc, hn, -⟩ | ⟨hc, c', hr⟩ | ⟨hc, hk, -⟩
    · simp [hc, hn]
    · refine ⟨fun h => absurd h hc, fun c hset => by simp [if_neg hc, hr, hset], fun c hnone hset => ?_⟩
      have hcode : c' = c := by simpa [hr, hnone] using hset
      rw [hr, hcode]
    · refine ⟨fun h => absurd h hc, fun c hset => by rw [if_neg hc, hk, hset], fun c hnone hset => ?_⟩
      simp [hk, hnone] at hset
  · rw [e.statusWord_firstErr, Engine.firstErrCode]
    rcases e.firstErr with _ | (_ | _ | _) <;> rfl

/-- Settles O28: only reset, INIT and a write of CFG take away a cause of irq or its enable. -/
theorem irqHoldsUntilItsConditionIsRemoved : Obligations.IrqHoldsUntilItsConditionIsRemoved := by
  intro s t h hirq
  obtain ⟨ev, p, he⟩ := step_performs h
  rw [p.nextTurn_eq_reset_iff, p.acceptsNow_init_iff, he]
  simp only [p.writesNow_iff (show Register.cfg ≠ .cmd by decide)]
  rw [Engine.irq_eq_true_iff] at hirq ⊢
  obtain ⟨hie, hcause⟩ := hirq
  cases p with
  | @store r v _ write =>
    by_cases hr : r = .cfg
    · subst hr
      by_cases hv : v.getLsbD 1 = true
      · exact .inl ⟨hv, by simpa [Event.effect] using hcause⟩
      · exact .inr (.inr (.inr ⟨v, rfl, by simpa using hv⟩))
    · exact .inl ⟨by rw [Event.effect, Engine.store_ie_of_ne hr, hie], by simpa [Event.effect] using hcause⟩
  | @accepted i accept =>
    obtain ⟨-, hlegal⟩ := accept
    cases i <;> simp_all [Event.effect, Engine.obey]
  | _ => simp_all [Event.effect]

/-! ### The registers the host writes -/

/-- A field of the engine that reset and one register's writes alone write. -/
theorem step_hostField {α : Type} {s t : State} (h : step s = .next t) (f : Engine → α) (g : Reg32 → α) (r : Register)
    (hr : r ≠ .cmd) (own : ∀ (v : Reg32) (e : Engine), f (e.store r v) = g v)
    (other : ∀ (r' : Register) (v : Reg32) (e : Engine), r' ≠ r → f (e.store r' v) = f e)
    (frame : ∀ e e', e'.hostFields = e.hostFields → f e' = f e) :
    f t.engine = if s.nextTurn = .reset then f Engine.reset else
      match s.writeNow with
      | some (off, v) => if off = r.offset then g v else f s.engine
      | none => f s.engine := by
  obtain ⟨ev, p, he⟩ := step_performs h
  simp only [p.nextTurn_eq_reset_iff, he]
  by_cases hreset : ev = .reset
  · simp [hreset, Event.effect]
  rw [if_neg hreset]
  by_cases hw : ∃ v, s.writesNow r v
  · obtain ⟨v, hw⟩ := hw
    obtain rfl := (p.writesNow_iff hr v).1 hw
    simp only [State.writesNow] at hw
    simp [hw, Event.effect, own]
  have keep : f (ev.effect s.engine) = f s.engine := by
    by_cases hs : ∃ r' v, ev = .store r' v
    · obtain ⟨r', v, rfl⟩ := hs
      exact other r' v _ fun hc => hw ⟨v, (p.writesNow_iff hr v).2 (by rw [hc])⟩
    · exact frame _ _ (ev.effect_hostFields hreset (by simpa using hs) _)
  rcases hn : s.writeNow with _ | ⟨off, v⟩
  · simp [keep]
  · have : off ≠ r.offset := fun hc => hw ⟨v, by rw [State.writesNow, hn, hc]⟩
    simp [this, keep]

/-- Settles O23. -/
theorem writersOfCfg : Obligations.WritersOfCfg := fun s t h =>
  step_hostField h (fun e => (e.compat, e.ie)) (fun v => (v.getLsbD 0, v.getLsbD 1)) .cfg (by decide)
    (fun _ _ => rfl) (fun _ _ _ hr => by simp only [Engine.store_compat_of_ne hr, Engine.store_ie_of_ne hr])
    (fun _ _ h => by simp_all [Engine.hostFields])

/-- Settles O19. -/
theorem payloadRegistersKeepTheirValue : Obligations.PayloadRegistersKeepTheirValue := by
  refine ⟨fun s t h => ⟨?_, ?_⟩, fun e => ⟨rfl, rfl⟩, getD_payload⟩
  · exact step_hostField h Engine.dataLo id .dataLo (by decide) (fun _ _ => rfl)
      (fun _ _ _ h => Engine.store_dataLo_of_ne h) (fun _ _ h => by simp_all [Engine.hostFields])
  · exact step_hostField h Engine.dataHi id .dataHi (by decide) (fun _ _ => rfl)
      (fun _ _ _ h => Engine.store_dataHi_of_ne h) (fun _ _ h => by simp_all [Engine.hostFields])

end Sys2Proof.Machine
end

section
/-! PROOFS. The register window: what the registers read, and what commands and reset do to it. -/

namespace Sys2Proof.Machine

/-- Settles O27, from the bits of STATUS. -/
theorem statusWordAndInterruptLevel : Obligations.StatusWordAndInterruptLevel := by
  refine ⟨fun e v hv => ?_, fun e => ?_, by decide, fun s v => rfl⟩
  · obtain rfl : v = e.statusWord := hv
    refine ⟨e.statusWord_st, e.getLsbD_statusWord 2, e.getLsbD_statusWord 3, e.getLsbD_statusWord 4,
      e.getLsbD_statusWord 5, e.getLsbD_statusWord 6, e.getLsbD_statusWord 7, ?_, e.statusWord_reserved⟩
    rw [e.statusWord_firstErr, Engine.firstErrCode]
    rcases e.firstErr with _ | (_ | _ | _) <;> rfl
  · simp [Engine.irq, or_assoc]

/-- Settles O25. -/
theorem idIsConstantAndCmdIsAPort : Obligations.IdIsConstantAndCmdIsAPort := by
  have hid : ∀ e, regRead e 0x000 = 0x51584801 := fun e => regRead_offset e .id
  refine ⟨fun e => ?_, fun s v => rfl, fun s => ?_, fun s v i hd => ?_⟩
  · rw [hid]
    decide
  · rw [performAccess_readOf 0x008 s (by decide)]
    rfl
  · have hw : regWrite 0x008 v s = commandWrite v s := rfl
    simp only [hw, commandWrite, hd]

/-- Settles O26: the mask 0x3 lies over CFG field by field. -/
theorem cfgKeepsItsTwoFields : Obligations.CfgKeepsItsTwoFields := by
  refine ⟨by decide, fun s v => ⟨_, rfl, rfl, ?_⟩⟩
  have hmask : (0x3 : Reg32) = (0 : BitVec 30) ++ (3 : BitVec 2) := rfl
  refine BitVec.eq_of_getLsbD_eq fun k hk => ?_
  change (Engine.cfgWord _).getLsbD k = _
  simp only [Engine.cfgWord, bit, hmask, BitVec.getLsbD_and, BitVec.getLsbD_append]
  match k with
  | 0 | 1 | k + 2 => simp

/-- Settles O29. -/
theorem lenReadsInHalves : Obligations.LenReadsInHalves := by
  refine fun e => ⟨?_, rfl, rfl⟩
  refine BitVec.eq_of_getLsbD_eq fun k hk => ?_
  rw [BitVec.getLsbD_append]
  change (if k < 32 then (e.len.extractLsb' 0 32).getLsbD k else (e.len.extractLsb' 32 32).getLsbD (k - 32)) = _
  split
  · simp [*]
  · simp only [BitVec.getLsbD_extractLsb', show 32 + (k - 32) = k by omega, show k - 32 < 32 by omega]
    simp

/-- Settles O37. -/
theorem stepRunsTheDecodedCommand : Obligations.StepRunsTheDecodedCommand := by
  intro s v i rest ht hh hd
  have h : step s = hostTurn { s with schedule := s.schedule.tail } := by simp only [step, stepOnce, takeTurn, ht]
  rw [h, hostTurn_writeCmd { s with schedule := s.schedule.tail } v rest hh]
  simp only [commandWrite, hd]

/-- Settles O30. -/
theorem digestWindowReads : Obligations.DigestWindowReads := by
  refine fun e k hk => ⟨fun hv j hj => ?_, fun hv => ?_⟩
  · rw [regRead_digest e k hk, Engine.digestWord, if_pos hv]
    exact byteAt_packLE_four (fun j => entry e.dig (4 * k + j)) j hj
  · rw [regRead_digest e k hk, Engine.digestWord_of_invalid hv]

/-- Settles O31, the second form byte by byte. -/
theorem accWindowReads : Obligations.AccWindowReads := by
  intro e m hm
  rw [regRead_acc e m hm]
  refine ⟨e.byteAt_accWord m, eq_of_byteAt_eq fun j hj => ?_⟩
  have hdiv : (4 * m + j) / 8 = m / 2 := by omega
  have hmod : (4 * m + j) % 8 = 4 * (m % 2) + j := by omega
  rw [e.byteAt_accWord m j (by omega), byteAt_half _ _ _ (by omega), accByte, hdiv, hmod]

/-- Settles O32. -/
theorem reservedOffsetsReadZeroIgnoreWrites : Obligations.ReservedOffsetsReadZeroIgnoreWrites := by
  refine fun off h4 => ⟨?_, fun hr s => ⟨?_, fun v => ?_⟩⟩
  · have := off.isLt
    rw [registerAt_eq_none_iff]
    omega
  · rw [performAccess_readOf off s h4, regRead_reserved hr]
  · rw [performAccess_writeOf off v s h4, regWrite_reserved hr]

/-- Settles O41. -/
theorem resetLeavesTheSpecsValues : Obligations.ResetLeavesTheSpecsValues := by
  refine ⟨fun s => ⟨_, rfl, rfl⟩, fun s us hs => ?_, rfl, rfl, fun off h4 => ?_⟩
  · refine ⟨({ s with schedule := s.schedule.tail } : State).withEngine Engine.reset, ?_, rfl⟩
    simp only [step, stepOnce, nextTurn_of_schedule hs, takeTurn, resetTurn]
  · rcases hr : registerAt off with _ | r
    · have h0 : off ≠ 0x000 := fun h => by simp [h, registerAt] at hr
      rw [regRead_reserved hr, if_neg h0]
    · obtain rfl := offset_of_registerAt h4 hr
      rw [regRead_offset]
      by_cases hid : r = .id
      · subst hid
        rfl
      · have h0 : r.offset ≠ 0x000 := fun h => hid (Register.offset_injective (r' := .id) h)
        rw [if_neg h0]
        exact Register.read_reset r hid

/-- Settles O15: a command has its own effect or records an error, and each leaves the registers it does not name. -/
theorem registersACommandLeaves : Obligations.RegistersACommandLeaves := by
  have raised : ∀ (c : ErrorCode) (e : Engine) (off : BitVec 12), registerAt off ≠ some .status →
      regRead (e.raise c) off = regRead e off := fun c e off hoff =>
    regRead_congr fun r hr => Register.read_raise r (fun h => hoff (h ▸ hr)) c e
  refine ⟨fun c s => raised c s.engine, fun s t off h hs => ?_, fun nm1 s t off h hs hlo hhi hacc => ?_,
    fun i s t off h hoff => ?_⟩
  · rcases exec_engine h with he | ⟨c, he⟩ <;> rw [he]
    · exact regRead_congr fun r hr => Register.read_closeStream r (fun h => hs (h ▸ hr)) _
    · exact raised c _ off hs
  · rcases exec_engine h with he | ⟨c, he⟩ <;> rw [he]
    · exact regRead_congr fun r hr => Register.read_absorb (byteCount_le nm1) (fun h => hs (h ▸ hr))
        (fun h => hlo (h ▸ hr)) (fun h => hhi (h ▸ hr)) fun m hm => hacc m (hm ▸ hr)
    · exact raised c _ off hs
  · have hf : t.engine.hostFields = s.engine.hostFields := by
      rcases exec_engine h with he | ⟨c, he⟩ <;> rw [he]
      · exact (Event.accepted i).effect_hostFields (by simp) (by simp) _
      · rfl
    rcases hoff with hn | ⟨r, hr, hoff⟩
    · rw [regRead_reserved hn, regRead_reserved hn]
    · refine regRead_congr fun r' hr' => ?_
      obtain rfl : r = r' := Option.some.inj (hoff.symm.trans hr')
      exact Register.read_eq_of_hostFields hr hf

end Sys2Proof.Machine
end

section
/-! SUPPORT. FOLD of a stream, byte by byte (R75), and of a stream absorbed piece by piece (R76, R77). -/

namespace Sys2Proof.Machine

/-- Byte i of window w of a message is byte 160 w + i of the message, padded with zeros (R71). -/
theorem accByte_window (m : List Byte) (w i : Nat) (hi : i < 160) :
    accByte (window m w) i = m.getD (160 * w + i) 0 := by
  have hq : i / 8 < 20 := by omega
  have hr : i % 8 < 8 := by omega
  have hsum : 160 * w + 8 * (i / 8) + i % 8 = 160 * w + i := by omega
  rw [accByte, window, entry_ofFn _ _ hq, windowWord, byteAt_packLE _ _ _ (by omega)]
  simp [List.getD_eq_getElem?_getD, hr, hsum]

/-- The XOR of the message bytes at positions congruent to i modulo 160, over the first k positions (R75). -/
def foldByteUpTo (m : List Byte) (i k : Nat) : Byte :=
  (List.range k).foldl (fun b j => if j % 160 = i then b ^^^ m.getD j 0 else b) 0

/-- One position more. -/
theorem foldByteUpTo_succ (m : List Byte) (i k : Nat) :
    foldByteUpTo m i (k + 1) =
      if k % 160 = i then foldByteUpTo m i k ^^^ m.getD k 0 else foldByteUpTo m i k := by
  simp [foldByteUpTo, List.range_succ]

/-- The byte form of FOLD runs over all positions of the message. -/
theorem foldByte_eq (m : List Byte) (i : Nat) : foldByte m i = foldByteUpTo m i m.length := rfl

/-- Positions past the end of the message add nothing. -/
theorem foldByteUpTo_of_length_le (m : List Byte) (i : Nat) {k : Nat} (h : m.length ≤ k) :
    foldByteUpTo m i k = foldByte m i := by
  induction k, h using Nat.le_induction with
  | base => rfl
  | succ k hk ih => simp [foldByteUpTo_succ, ih, List.getElem?_eq_none hk]

/-- Within one window only position i adds to byte i. -/
theorem foldByteUpTo_window (m : List Byte) (i w k : Nat) (hk : k ≤ 160) :
    foldByteUpTo m i (160 * w + k) =
      if i < k then foldByteUpTo m i (160 * w) ^^^ m.getD (160 * w + i) 0 else foldByteUpTo m i (160 * w) := by
  induction k with
  | zero => simp
  | succ k ih =>
    have hmod : (160 * w + k) % 160 = k := by omega
    rw [← Nat.add_assoc, foldByteUpTo_succ, hmod, ih (by omega)]
    rcases Nat.lt_trichotomy i k with h | rfl | h
    · rw [if_neg (by omega), if_pos h, if_pos (by omega)]
    · simp
    · rw [if_neg (by omega), if_neg (by omega), if_neg (by omega)]

/-- Byte i of the XOR of the first n windows. -/
theorem accByte_foldl_window (m : List Byte) (i : Nat) (hi : i < 160) (n : Nat) :
    accByte ((List.range n).foldl (fun a w => accXor a (window m w)) Acc.zero) i = foldByteUpTo m i (160 * n) := by
  induction n with
  | zero => simp [foldByteUpTo]
  | succ n ih =>
    rw [Nat.mul_succ, foldByteUpTo_window m i n 160 (le_refl _), if_pos hi]
    simp only [List.range_succ, List.foldl_append, List.foldl_cons, List.foldl_nil, accByte_accXor, ih,
      accByte_window m n i hi]

/-- The byte form of FOLD (R75). -/
theorem accByte_fold (m : List Byte) (i : Nat) (hi : i < 160) : accByte (fold m) i = foldByte m i := by
  rw [fold, accByte_foldl_window m i hi, foldByteUpTo_of_length_le m i (by omega)]

/-- The first positions do not see what is appended. -/
theorem foldByteUpTo_append (m bs : List Byte) (i : Nat) {k : Nat} (h : k ≤ m.length) :
    foldByteUpTo (m ++ bs) i k = foldByteUpTo m i k := by
  induction k with
  | zero => rfl
  | succ k ih =>
    have hget : (m ++ bs).getD k 0 = m.getD k 0 := List.getD_append _ _ _ _ h
    rw [foldByteUpTo_succ, foldByteUpTo_succ, hget, ih (Nat.le_of_succ_le h)]

/-- A byte at the end of the stream adds to the byte at its position (R75). -/
theorem foldByte_concat (m : List Byte) (b : Byte) (i : Nat) :
    foldByte (m ++ [b]) i = if m.length % 160 = i then foldByte m i ^^^ b else foldByte m i := by
  have hget : (m ++ [b]).getD m.length 0 = b := by simp
  rw [foldByte_eq, List.length_append, List.length_singleton, foldByteUpTo_succ, hget,
    foldByteUpTo_append m [b] i (le_refl _), foldByte_eq]

/-- Absorbing bytes at the end of a folded stream folds the longer stream (R76, R77). -/
theorem fold_append (m bs : List Byte) : fold (m ++ bs) = absorbBytes (fold m) m.length bs := by
  induction bs generalizing m with
  | nil => simp [absorbBytes]
  | cons b bs ih =>
    have hone : fold (m ++ [b]) = xorByteAt (fold m) (m.length % 160) b := by
      refine acc_eq_of_accByte_eq fun i hi => ?_
      rw [accByte_xorByteAt _ _ _ _ (Nat.mod_lt _ (by decide)), accByte_fold _ i hi, accByte_fold _ i hi,
        foldByte_concat]
      simp only [eq_comm]
    rw [absorbBytes, ← hone, List.append_cons, ih, List.length_append, List.length_singleton]

end Sys2Proof.Machine
end

section
/-! PROOFS. The invariant of the engine holds at reset and over every step, and what it says of the digest (R112). -/

namespace Sys2Proof.Machine

/-- After an error FIRST_ERR holds the code it held, or the error's own (R24). -/
theorem Engine.raise_firstErr_eq_some {e : Engine} {c c' : ErrorCode} (h : (e.raise c).firstErr = some c') :
    e.firstErr = some c' ∨ c = c' := by
  rcases hf : e.firstErr with _ | d <;> simp_all

/-- raise keeps the invariant, where LENGTH_OVERFLOW comes in an open run (R113, R117). -/
theorem Engine.Inv.raise {e : Engine} (hi : e.Inv) (c : ErrorCode) (h : c = .lengthOverflow → e.st = .absorb) :
    (e.raise c).Inv where
  firstErr_none := by cases c <;> simp
  firstErr_flag := fun c' h' => by
    rcases Engine.raise_firstErr_eq_some h' with h | rfl
    · simp [hi.firstErr_flag c' h]
    · simp
  open_clean := hi.open_clean
  done_digest := hi.done_digest
  failed_clear := hi.failed_clear
  idle_clear := hi.idle_clear
  overflow_open := fun h' => by
    by_cases hc : c = .lengthOverflow
    · exact .inl (h hc)
    · exact hi.overflow_open (by simpa [hc] using h')
  folded := hi.folded

/-- The invariant speaks of no register that the host writes. -/
theorem Engine.Inv.store {e : Engine} (hi : e.Inv) (r : Register) (v : Reg32) : (e.store r v).Inv := by
  have frame : ∀ c i lo hi', ({ e with compat := c, ie := i, dataLo := lo, dataHi := hi' } : Engine).Inv :=
    fun _ _ _ _ => ⟨hi.firstErr_none, hi.firstErr_flag, hi.open_clean, hi.done_digest, hi.failed_clear, hi.idle_clear,
      hi.overflow_open, hi.folded⟩
  cases r with
  | cfg => exact frame ..
  | dataLo => exact frame ..
  | dataHi => exact frame ..
  | _ => exact hi

/-- INIT establishes the invariant, from any state (R102). -/
theorem Engine.Inv.openRun (e : Engine) : e.openRun.Inv where
  firstErr_none := by simp
  firstErr_flag := nofun
  open_clean := fun _ => ⟨rfl, rfl, rfl⟩
  done_digest := nofun
  failed_clear := nofun
  idle_clear := nofun
  overflow_open := nofun
  folded := ⟨[], rfl, rfl⟩

/-- An accepted ABSORB extends the stream by its operand (R76, R80). -/
theorem Engine.Inv.absorb {e : Engine} (hi : e.Inv) {n : Nat} (hst : e.st = .absorb) (hn : n ≤ 8)
    (hfit : e.len.toNat + n ≤ 2 ^ 64 - 1) : (e.absorb n).Inv where
  firstErr_none := hi.firstErr_none
  firstErr_flag := hi.firstErr_flag
  open_clean := hi.open_clean
  done_digest := fun h => by simp [hst] at h
  failed_clear := fun h => by
    have := (hi.open_clean (by simp [hst])).2.1
    simp [this] at h
  idle_clear := fun h => by simp [hst] at h
  overflow_open := hi.overflow_open
  folded := by
    obtain ⟨m, hlen, hacc⟩ := hi.folded
    refine ⟨m ++ e.operand n, ?_, ?_⟩
    · rw [List.length_append, length_operand e n hn, hlen, Engine.toNat_absorb_len hfit]
    · rw [Engine.absorb_acc, fold_append, hlen, hacc]

/-- An accepted FINAL comes with ERR_LEN = 0, so no overflowed run goes BUSY (R104, R117). -/
theorem Engine.Inv.closeStream {e : Engine} (hi : e.Inv) (hst : e.st = .absorb) (hl : e.errLen = false) :
    e.closeStream.Inv where
  firstErr_none := hi.firstErr_none
  firstErr_flag := hi.firstErr_flag
  open_clean := fun _ => hi.open_clean (by simp [hst])
  done_digest := nofun
  failed_clear := hi.failed_clear
  idle_clear := nofun
  overflow_open := fun h => by simp [hl] at h
  folded := hi.folded

/-- FAIL closes the run with the sentinel and an empty stream (R106). -/
theorem Engine.Inv.failRun {e : Engine} (hi : e.Inv) : e.failRun.Inv where
  firstErr_none := hi.firstErr_none
  firstErr_flag := hi.firstErr_flag
  open_clean := fun h => absurd rfl h
  done_digest := nofun
  failed_clear := fun _ => ⟨rfl, rfl, rfl⟩
  idle_clear := nofun
  overflow_open := fun _ => .inr rfl
  folded := ⟨[], rfl, rfl⟩

/-- COMPLETE closes the run with the digest of its stream (R105). -/
theorem Engine.Inv.closeRun {e : Engine} (hi : e.Inv) (hst : e.st = .busy) : e.closeRun.Inv := by
  obtain ⟨-, hs, -⟩ := hi.open_clean (by simp [hst])
  have hl : e.errLen = false := Bool.eq_false_iff.2 fun h => by simpa [hst, hs] using hi.overflow_open h
  constructor
  case firstErr_none => simpa using hi.firstErr_none
  case firstErr_flag => simpa using hi.firstErr_flag
  case folded => simpa using hi.folded
  all_goals simp [hs, hl]

/-- Settles O56. -/
theorem invariantHoldsAtReset : Obligations.InvariantHoldsAtReset where
  firstErr_none := by decide
  firstErr_flag := nofun
  open_clean := fun _ => ⟨rfl, rfl, rfl⟩
  done_digest := nofun
  failed_clear := nofun
  idle_clear := fun _ => ⟨rfl, rfl⟩
  overflow_open := nofun
  folded := ⟨[], rfl, rfl⟩

/-- An event that the step performs keeps the invariant. -/
theorem State.Performs.effect_inv {s : State} {ev : Event} (p : s.Performs ev) (hi : s.engine.Inv) :
    (ev.effect s.engine).Inv := by
  cases p with
  | reset => exact invariantHoldsAtReset
  | complete turn => exact hi.closeRun turn.2
  | quiet => exact hi
  | store => exact hi.store _ _
  | illegal => exact hi.raise _ nofun
  | refused => exact hi.raise _ nofun
  | overflow accept =>
    obtain ⟨-, hlegal⟩ := accept
    exact hi.raise _ fun _ => by simpa using hlegal
  | @accepted i accept fits =>
    obtain ⟨-, hlegal⟩ := accept
    cases i with
    | nop => exact hi
    | init => exact Engine.Inv.openRun _
    | absorb nm1 => exact hi.absorb (by simpa using hlegal) (byteCount_le nm1) (fits nm1 rfl)
    | final =>
      simp only [ne_eq, legality_final_eq_none_iff, not_or, not_not, Bool.not_eq_true] at hlegal
      exact hi.closeStream hlegal.1 hlegal.2
    | fail => exact hi.failRun

/-- Settles O57: every step is an event, and every event keeps the invariant. -/
theorem everyStepKeepsTheInvariant : Obligations.EveryStepKeepsTheInvariant := by
  intro s t hi h
  obtain ⟨ev, p, he⟩ := step_performs h
  exact he ▸ p.effect_inv hi

/-- A digest is the hash of a stream of LEN bytes that folds to ACC (R97). -/
theorem Engine.Inv.qxhDigest_eq {e : Engine} (hi : e.Inv) :
    ∃ m : List Byte, m.length = e.len.toNat ∧ e.acc = fold m ∧ qxhDigest e.acc e.len = qxh m := by
  obtain ⟨m, hlen, hacc⟩ := hi.folded
  exact ⟨m, hlen, hacc, by rw [qxh, hlen, hacc, BitVec.ofNat_toNat, BitVec.setWidth_eq]⟩

/-- Settles O58, from who writes DVALID and DIG; that DVALID is 0 in BUSY keeps a COMPLETE out of the last clause. -/
theorem noPartialDigestIsPresented : Obligations.NoPartialDigestIsPresented := by
  refine ⟨fun s t hi h => ?_, fun e hv k hk => ?_⟩
  · have hdig := writersOfDig.1 s t h
    have hval := (writersOfDvalidAndSrcerr s t h).1
    obtain ⟨ev, p, he⟩ := step_performs h
    simp only [ne_eq, p.nextTurn_eq_reset_iff, p.completesNow_iff, p.acceptsNow_init_iff, p.acceptsNow_fail_iff]
      at hdig hval ⊢
    rw [hval, hdig]
    refine ⟨?_, ?_, ?_, ?_⟩
    · cases ev with
      | accepted i => cases i <;> simp
      | _ => simp
    · rintro rfl
      simpa using hi.qxhDigest_eq
    · rintro rfl
      simp
    · intro hv hreset hinit hfail
      have hcomplete : ev ≠ .complete := by
        rintro rfl
        have hb := (p.completesNow_iff.2 rfl).2
        simp [(hi.open_clean (by simp [hb])).1] at hv
      simp [hreset, hcomplete, hinit, hfail]
  · rw [regRead_digest e k hk, Engine.digestWord_of_invalid hv]

end Sys2Proof.Machine
end

section
/-! SUPPORT. The turn that a step takes, what the bus answers to an access or a POLL at the host's turn, and how a
command and COMPLETE meet BUSY. -/

namespace Sys2Proof.Machine

/-- A step is the turn of the agent at the head of the schedule (R52). -/
theorem step_of_schedule {s : State} {u : Turn} {us : List Turn} (h : s.schedule = u :: us) :
    step s = takeTurn u { s with schedule := us } := by
  rw [step, stepOnce, nextTurn_of_schedule h, h, List.tail_cons]

/-- The completion agent at the head of the schedule performs COMPLETE (R52, R105). -/
theorem step_completionAgent {s : State} {us : List Turn} (h : s.schedule = .engine :: us) :
    step s = .next { s with engine := s.engine.complete, schedule := us } :=
  step_of_schedule h

/-- The host's turn performs its next access (R51). -/
theorem hostTurn_access {s : State} {a : Access} {rest : List HostAction} (h : s.host = .access a :: rest) :
    hostTurn s = performAccess a { s with host := rest } := by
  simp only [hostTurn, h]

/-- The host's turn makes one read of its POLL (R68; log entry 17). -/
theorem hostTurn_poll {s : State} {off : BitVec 12} {mask value : Reg32} {rest : List HostAction}
    (h : s.host = .poll off mask value :: rest) : hostTurn s = performPoll off mask value rest s := by
  simp only [hostTurn, h]

/-- An access is refused exactly when it is not accepted: a read answers its value, and every register write has a next
state (R42). -/
theorem performAccess_eq_refused_iff (a : Access) (s : State) :
    performAccess a s = .refused .busError ↔ ¬ a.accepted = true := by
  unfold performAccess
  split
  case isTrue ha =>
    refine iff_of_false ?_ (not_not_intro ha)
    split
    next => nofun
    next v _ =>
      obtain ⟨e, he⟩ := regWrite_next a.off v (s.respond .writeDone)
      simp [he]
  case isFalse ha => exact iff_of_true rfl ha

/-- A round of a POLL at an aligned offset logs one read and touches nothing else but the host's place in its program
(R68; log entry 17). -/
theorem performPoll_of_aligned {off : BitVec 12} (h : off.toNat % 4 = 0) (mask value : Reg32)
    (rest : List HostAction) (s : State) :
    performPoll off mask value rest s =
      .next (({ s with host := if regRead s.engine off &&& mask = value then rest else s.host } : State).respond
        (.readData (regRead s.engine off))) :=
  if_pos ((Access.readOf_accepted_iff off).2 h)

/-- A command that the legality table refuses records SEQUENCE and does nothing else (R100, R113). -/
theorem exec_of_legality_none {i : Instr} {s : State} (h : legality i s.engine.st s.engine.errLen = none) :
    exec i s = .next (s.raise .sequence) := by
  cases i with
  | nop => simp at h
  | init => simp_all [exec, execInit]
  | absorb nm1 => simp_all [exec, execAbsorb]
  | final =>
    rcases (legality_final_eq_none_iff _ _).1 h with hst | hl
    · simp [exec, execFinal, hst]
    · simp [exec, execFinal, hl]
  | fail => simp_all [exec, execFail]

/-- BUSY refuses every command but NOP (R100). -/
theorem legality_busy_eq_none {i : Instr} (h : i ≠ .nop) (b : Bool) : legality i .busy b = none := by
  cases i with
  | nop => exact absurd rfl h
  | _ => simp

/-- A command written in BUSY leaves the engine BUSY, and unless it is NOP it records SEQUENCE and does nothing else
(R100). -/
theorem exec_of_busy (i : Instr) {s : State} (hb : s.engine.st = .busy) :
    ∃ e, exec i s = .next (s.withEngine e) ∧ e.st = .busy ∧ (i ≠ .nop → e = s.engine.raise .sequence) := by
  by_cases hi : i = .nop
  · exact ⟨s.engine, hi ▸ rfl, hb, fun h => absurd hi h⟩
  · exact ⟨_, exec_of_legality_none (hb ▸ legality_busy_eq_none hi _), hb, fun _ => rfl⟩

/-- COMPLETE leaves BUSY for DONE (R105). -/
theorem Engine.complete_st_of_busy {e : Engine} (h : e.st = .busy) : e.complete.st = .done := by
  rw [Engine.complete_eq, if_pos h, Engine.closeRun_st]

/-- A command at the head of the host's actions is performed when the host is at the head of the schedule (R99). -/
theorem step_writeCommand {s : State} {i : Instr} {us : List Turn} {rest : List HostAction}
    (hs : s.schedule = .host :: us) (hh : s.host = writeCommand i :: rest) :
    step s = exec i { s with host := rest, schedule := us, responses := .writeDone :: s.responses } := by
  rw [stepRunsTheDecodedCommand s (encode i) i rest (nextTurn_of_schedule hs) hh (decode_encode i), hs, List.tail_cons]

end Sys2Proof.Machine
end

section
/-! PROOFS. The bus and the order of the agents: which accesses are refused, that nothing else stops a step, that reads
have no effect, and how the turns interleave. -/

namespace Sys2Proof.Machine

/-- Settles O35. -/
theorem busErrorExactlyForUnacceptedAccesses : Obligations.BusErrorExactlyForUnacceptedAccesses := by
  intro s a rest hs
  rw [hostTurn_access hs, performAccess_eq_refused_iff, Access.accepted_iff]
  simp only [not_and_or, ne_eq]

/-- Settles O36: the turns of the completion agent and of reset always answer a state. -/
theorem onlyABusErrorStopsTheMachine : Obligations.OnlyABusErrorStopsTheMachine := by
  intro s
  rw [step, stepOnce]
  cases hn : s.nextTurn with
  | host =>
    rcases hostTurn_next_or_refused { s with schedule := s.schedule.tail } with hnext | ⟨a, rest, hh, hill, href⟩
    · exact .inl hnext
    · exact .inr ⟨href, rfl, a, rest, hh, hill⟩
  | engine => exact .inl ⟨_, rfl⟩
  | reset => exact .inl ⟨_, rfl⟩

/-- Settles O39. -/
theorem anyAgentMayMoveNext : Obligations.AnyAgentMayMoveNext := fun _ _ =>
  ⟨step_of_schedule, step_completionAgent, step_of_schedule⟩

/-- Settles O40: BUSY outlasts the command that comes first, so COMPLETE is still enabled after it. -/
theorem commandsRaceWithComplete : Obligations.CommandsRaceWithComplete := by
  intro s i us rest hb hh
  refine ⟨fun hs => ?_, fun hs => ?_⟩
  · obtain ⟨e, he, hbusy, hrefused⟩ := exec_of_busy i
      (s := { s with host := rest, schedule := .engine :: us, responses := .writeDone :: s.responses }) hb
    refine ⟨_, _, (step_writeCommand hs hh).trans he, step_completionAgent rfl, fun hi => ?_,
      Engine.complete_st_of_busy hbusy⟩
    exact congrArg Engine.complete (hrefused hi)
  · exact ⟨_, step_completionAgent hs, rfl, Engine.complete_st_of_busy hb, step_writeCommand rfl hh⟩

/-- Settles O34. -/
theorem readsHaveNoSideEffect : Obligations.ReadsHaveNoSideEffect := by
  refine fun s off rest h4 => ⟨fun hs => ?_, fun mask value hs => ?_⟩
  · exact ⟨_, (hostTurn_access hs).trans (performAccess_readOf off _ h4), rfl, rfl, rfl⟩
  · exact ⟨_, (hostTurn_poll hs).trans (performPoll_of_aligned h4 mask value rest s), rfl, rfl, rfl⟩

/-- Settles O38. -/
theorem windowAddressesReachTheirOffsets : Obligations.WindowAddressesReachTheirOffsets := by
  refine ⟨Nat.mul_mod_right _ _, fun off => ?_, fun a off h => ?_⟩
  · rw [windowOffset, busAddress, if_pos ⟨Nat.le_add_right _ _, Nat.add_lt_add_left off.isLt _⟩,
      Nat.add_sub_cancel_left, BitVec.ofNat_toNat, BitVec.setWidth_eq]
  · unfold windowOffset at h
    split at h
    case isTrue hin =>
      obtain ⟨hle, hlt⟩ := hin
      cases h
      rw [busAddress, BitVec.toNat_ofNat, Nat.mod_eq_of_lt (Nat.sub_lt_left_of_lt_add hle hlt),
        Nat.add_sub_cancel' hle]
    case isFalse => cases h

end Sys2Proof.Machine
end

section
/-! SUPPORT. The words of the commands (30_encoding.md R61, R62, R64): the list of all commands, and a word is ILLEGAL
exactly when it is none of theirs. -/

namespace Sys2Proof.Machine

/-- A word decodes to a command exactly when it is the command's word (R60 to R62). -/
theorem decode_eq_command_iff (v : Reg32) (i : Instr) : decode v = .command i ↔ encode i = v :=
  ⟨fun h => (encode_of_decode h).symm, fun h => h ▸ decode_encode i⟩

/-- The word of ABSORB, as R64 writes it. -/
theorem encode_absorb (nm1 : BitVec 3) : encode (.absorb nm1) = 0x00000002 + 0x10 * nm1.setWidth 32 := by
  revert nm1
  decide

/-- The twelve commands, in the order of R64. -/
def commands : List Instr :=
  [.nop, .init, .absorb 0, .absorb 1, .absorb 2, .absorb 3, .absorb 4, .absorb 5, .absorb 6, .absorb 7, .final, .fail]

theorem mem_commands (i : Instr) : i ∈ commands := by
  cases i with
  | absorb nm1 => revert nm1; decide
  | _ => decide

theorem commands_map_encode :
    commands.map encode = [0x00, 0x01, 0x02, 0x12, 0x22, 0x32, 0x42, 0x52, 0x62, 0x72, 0x03, 0x04] := by decide

/-- The words that decode to a command are the words of the twelve (R64). -/
theorem exists_decode_command_iff (v : Reg32) : (∃ i, decode v = .command i) ↔ v ∈ commands.map encode := by
  simp only [decode_eq_command_iff, List.mem_map, mem_commands, true_and]

/-- A word is ILLEGAL exactly when it is none of the twelve (R64, R65). -/
theorem exists_decode_illegal_iff (v : Reg32) : (∃ r, decode v = .illegal r) ↔ v ∉ commands.map encode := by
  rw [← exists_decode_command_iff]
  cases decode v with
  | command i => simp
  | illegal r => simp

end Sys2Proof.Machine
end

section
/-! PROOFS. The encoding of the commands: decoder and encoder agree, and exactly twelve words are legal. -/

namespace Sys2Proof.Machine

/-- Settles O1. -/
theorem decodeAndEncodeAgree : Obligations.DecodeAndEncodeAgree :=
  decode_eq_command_iff

/-- Settles O2: the listed words are those of the twelve commands, and two commands have two words. -/
theorem exactlyTwelveWordsDecode : Obligations.ExactlyTwelveWordsDecode := by
  have distinct : (commands.map encode).Nodup := List.Nodup.map (fun _ _ => encode_injective) (by decide)
  unfold Obligations.ExactlyTwelveWordsDecode
  rw [← commands_map_encode]
  refine ⟨fun v i => ?_, exists_decode_command_iff, distinct⟩
  rw [decode_eq_command_iff, eq_comm]
  cases i with
  | absorb nm1 => simp [encode_absorb]
  | _ => simp [encode, commandWord]

/-- Settles O3. -/
theorem listedWordsDecodeAsListed : Obligations.ListedWordsDecodeAsListed := by
  refine ⟨decode_encode .nop, decode_encode .init, decode_encode (.absorb 0), decode_encode (.absorb 1),
    decode_encode (.absorb 7), decode_encode .final, decode_encode .fail, fun v hv => ?_⟩
  rw [exists_decode_illegal_iff, commands_map_encode]
  fin_cases hv <;> decide

end Sys2Proof.Machine
end

section
/-! PROOFS. ABSORB n reads the first n payload bytes and no other. -/

namespace Sys2Proof.Machine

/-- What ABSORB leaves of the engine: an error in the order of R120, or its effect (R76). -/
theorem exec_absorb_engine {nm1 : BitVec 3} {s t : State} (h : exec (.absorb nm1) s = .next t) :
    t.engine =
      if s.engine.st ≠ .absorb then s.engine.raise .sequence
      else if s.engine.lengthOverflows (byteCount nm1) then s.engine.raise .lengthOverflow
      else s.engine.absorb (byteCount nm1) := by
  simp only [exec, execAbsorb] at h
  split_ifs at h ⊢ <;> cases h <;> rfl

/-- Engines with the same first n payload bytes have the same operand of ABSORB n (R63). -/
theorem Engine.operand_congr {e e' : Engine} {n : Nat}
    (h : ∀ j, j < n → e.payload.getD j 0 = e'.payload.getD j 0) : e.operand n = e'.operand n := by
  refine List.ext_getElem (by simp [Engine.operand]) fun j hj hj' => ?_
  obtain ⟨hn, hlt⟩ : j < n ∧ j < e.payload.length := by simpa [Engine.operand] using hj
  have hlt' : j < e'.payload.length := hlt
  have hbyte := h j hn
  rw [List.getD_eq_getElem _ _ hlt, List.getD_eq_getElem _ _ hlt'] at hbyte
  simpa only [Engine.operand, List.getElem_take] using hbyte

/-- Settles O55: errors are decided by STATE and LEN, and the fold takes the operand only. -/
theorem payloadBytesBeyondTheCountAreIgnored : Obligations.PayloadBytesBeyondTheCountAreIgnored := by
  intro nm1 s1 s2 t1 t2 hagree hbytes h1 h2
  have hst : s2.engine.st = s1.engine.st := by rw [hagree]
  have hlen : s2.engine.len = s1.engine.len := by rw [hagree]
  have hoperand : s1.engine.operand (byteCount nm1) = s2.engine.operand (byteCount nm1) :=
    Engine.operand_congr hbytes
  rw [exec_absorb_engine h1, exec_absorb_engine h2, hst, Engine.lengthOverflows, Engine.lengthOverflows, hlen]
  split_ifs
  · exact congrArg (Engine.raise .sequence) hagree
  · exact congrArg (Engine.raise .lengthOverflow) hagree
  · rw [hagree] at hoperand
    refine (congrArg (Engine.absorb _) hagree).trans ?_
    rw [Engine.absorb, ← hoperand, Engine.absorb]

end Sys2Proof.Machine
end

section
/-! PROOFS. The assembler: statements, pseudo-instructions and programs (30_encoding.md R68 to R70). -/

namespace Sys2Proof.Machine

/-- ABSORB n in text is the CMD write of the word with NM1 = n - 1 (R62, R68). -/
theorem assemble_absorb (nm1 : BitVec 3) :
    Statement.assemble (.absorb (nm1.toNat + 1)) = some (writeCommand (.absorb nm1)) := by
  revert nm1
  decide

/-- The assembler rejects a byte count outside 1..8 (R68). -/
theorem assemble_absorb_eq_none {n : Nat} (h : n = 0 ∨ 9 ≤ n) : Statement.assemble (.absorb n) = none :=
  if_neg (by omega)

/-- Settles O59. -/
theorem assemblerEncodesItsStatements : Obligations.AssemblerEncodesItsStatements := by
  refine ⟨⟨rfl, rfl, rfl, rfl⟩, assemble_absorb, fun n => assemble_absorb_eq_none, fun v => rfl,
    fun r v mask value => ⟨rfl, rfl, rfl⟩, fun off v mask value => ⟨fun h => ?_, fun h => ?_⟩,
    ⟨rfl, rfl, rfl, rfl, rfl, rfl, rfl, rfl⟩, by decide, by decide⟩
  · simp [Statement.assemble, RegOperand.offset, h]
  · simp [Statement.assemble, RegOperand.offset, h]

/-- A program in two parts is assembled part by part, and rejected if a part is (R68). -/
theorem assemble_append (p q : List AsmLine) :
    assemble (p ++ q) = (assemble p).bind fun a => (assemble q).map fun b => a ++ b := by
  simp only [assemble, List.flatMap_append, List.mapM_append, Option.map_eq_bind]
  rfl

/-- ABSORBW is two payload writes and an ABSORB, so it is rejected exactly where the ABSORB is (R69). -/
theorem assemble_absorbw (lo hi : Reg32) (n : Nat) :
    assemble [.pseudo (.absorbw lo hi n)] = (Statement.assemble (.absorb n)).map fun a =>
      [.access (Access.writeOf 0x010 lo), .access (Access.writeOf 0x014 hi), a] := by
  rw [Option.map_eq_bind]
  rfl

/-- The word of CONFIG with two bits sets COMPAT and IE to them (R17, R69). -/
theorem Engine.writeCfg_config (compat ie : Bool) (e : Engine) :
    e.writeCfg (((bit ie).setWidth 32 <<< 1) ||| (bit compat).setWidth 32) = { e with compat := compat, ie := ie } := by
  cases compat <;> cases ie <;> rfl

/-- Settles O60. -/
theorem pseudoInstructionsExpandToTheirAccesses : Obligations.PseudoInstructionsExpandToTheirAccesses := by
  refine ⟨fun lo hi nm1 => ?_, fun lo hi n hn => ?_, fun compat ie => rfl, fun compat ie s => ?_, rfl, rfl,
    fun p q a b hp hq => ?_, fun p q h => ?_⟩
  · rw [assemble_absorbw, assemble_absorb, Option.map_some]
  · rw [assemble_absorbw, assemble_absorb_eq_none hn, Option.map_none]
  · exact congrArg (fun e => Host.Outcome.next (s.withEngine e)) (s.engine.writeCfg_config compat ie)
  · rw [assemble_append, hp, hq]; rfl
  · rw [assemble_append]
    rcases h with hp | hq
    · rw [hp]; rfl
    · rw [hq]; simp

end Sys2Proof.Machine
end

section
/-! SUPPORT. What ABSORB does case by case (R76), the words of FOLD's step-by-step algorithm (R72, R73), and how a
host's accesses deliver a stream (R77). -/

namespace Sys2Proof.Machine

/-! ### ABSORB -/

/-- A conditional XOR of terms onto a start value is the start value XOR the same onto zero. -/
theorem foldl_xor_ite (c : Nat → Prop) [DecidablePred c] (g : Nat → Byte) (js : List Nat) (x : Byte) :
    js.foldl (fun b j => if c j then b ^^^ g j else b) x =
      x ^^^ js.foldl (fun b j => if c j then b ^^^ g j else b) 0 := by
  have hom := List.foldl_hom (x ^^^ ·) (g₁ := fun b j => if c j then b ^^^ g j else b)
    (g₂ := fun b j => if c j then b ^^^ g j else b) (l := js) (init := 0) fun b j => by
      split
      · exact BitVec.xor_assoc ..
      · rfl
  simpa using hom

/-- Byte j of ABSORB's operand is lane j of DATA_LO, then of DATA_HI (R63). -/
theorem getD_operand (e : Engine) {n j : Nat} (hn : n ≤ 8) (hj : j < n) :
    (e.operand n).getD j 0 = if j < 4 then byteAt e.dataLo j else byteAt e.dataHi (j - 4) := by
  rw [← getD_payload e j (by omega)]
  simp [Engine.operand, List.getD_eq_getElem?_getD, hj]

/-- An accepted ABSORB XORs payload byte j into the byte at its position (R76). -/
theorem Engine.accByte_absorb (e : Engine) {n : Nat} (hn : n ≤ 8) (p : Nat) :
    accByte (e.absorb n).acc p = (List.range n).foldl
      (fun b j => if (e.len.toNat + j) % 160 = p then
          b ^^^ (if j < 4 then byteAt e.dataLo j else byteAt e.dataHi (j - 4))
        else b)
      (accByte e.acc p) := by
  rw [Engine.absorb_acc, accByte_absorbBytes, length_operand e n hn, ← foldl_xor_ite]
  refine List.foldl_ext _ _ _ fun b j hj => ?_
  rw [getD_operand e hn (List.mem_range.1 hj)]

/-- In an open run an ABSORB that fits LEN has its effect (R76). -/
theorem exec_absorb_of_fits {nm1 : BitVec 3} {s : State} (hst : s.engine.st = .absorb)
    (hfit : s.engine.len.toNat + byteCount nm1 ≤ 2 ^ 64 - 1) :
    exec (.absorb nm1) s = .next (s.withEngine (s.engine.absorb (byteCount nm1))) := by
  have ho : ¬ s.engine.lengthOverflows (byteCount nm1) = true := fun h =>
    Nat.not_lt.2 hfit ((lengthOverflows_iff _ _ (byteCount_le nm1)).1 h)
  rw [exec, execAbsorb, if_neg (not_not.2 hst), if_neg ho]

/-- In an open run an ABSORB that exceeds LEN records LENGTH_OVERFLOW and absorbs nothing (R76, R117). -/
theorem exec_absorb_of_exceeds {nm1 : BitVec 3} {s : State} (hst : s.engine.st = .absorb)
    (hover : 2 ^ 64 - 1 < s.engine.len.toNat + byteCount nm1) :
    exec (.absorb nm1) s = .next (s.raise .lengthOverflow) := by
  rw [exec, execAbsorb, if_neg (not_not.2 hst), if_pos ((lengthOverflows_iff _ _ (byteCount_le nm1)).2 hover)]

/-! ### The words of the step-by-step fold -/

/-- Byte j of word q of the input is byte 8q + j of the message, 0 past its end (R72, R73). -/
theorem byteAt_inputWord (m : List Byte) (q : Nat) {j : Nat} (hj : j < 8) :
    byteAt (inputWord m q) j = m.getD (8 * q + j) 0 := by
  rw [inputWord, byteAt_packLE _ _ _ (by omega)]
  simp [List.getD_eq_getElem?_getD, hj]

/-- The words past the end of the message are zero. -/
theorem inputWord_of_length_le {m : List Byte} {q : Nat} (h : m.length ≤ 8 * q) : inputWord m q = 0 := by
  rw [inputWord, List.drop_of_length_le h, List.take_nil, packLE]

/-- A window of the contract holds the input words of the algorithm (R71, R72). -/
theorem window_eq_inputWords (m : List Byte) (w : Nat) :
    window m w = Vector.ofFn fun i => inputWord m (20 * w + i.val) := by
  refine acc_eq_of_accByte_eq fun i hi => ?_
  have hq : i / 8 < 20 := by omega
  have hsum : 8 * (20 * w + i / 8) + i % 8 = 160 * w + i := by omega
  rw [accByte_window m w i hi, accByte, entry_ofFn _ _ hq, byteAt_inputWord _ _ (Nat.mod_lt _ (by decide)), hsum]

/-- The tail block is the window that follows the complete ones (R73; 90_conflicts.md C3). -/
theorem tailBlock_eq_window (m : List Byte) : tailBlock m = window m (fullWords m / 20) := by
  rw [window_eq_inputWords, tailBlock]
  congr 1
  funext i
  by_cases hi : i.val < tailWords m
  · rw [if_pos hi]
  · rw [if_neg hi, inputWord_of_length_le]
    simp only [tailWords, fullWords] at hi ⊢
    split at hi <;> omega

/-- The tail block has no words exactly at the multiples of 160 bytes (R73, R74). -/
theorem tailWords_eq_zero_iff (m : List Byte) : tailWords m = 0 ↔ m.length % 160 = 0 := by
  simp only [tailWords, fullWords]
  split <;> omega

/-! ### The delivery of a stream -/

/-- An accepted read is answered with the register's value (R41, R107). -/
theorem performAccess_read {a : Access} (ha : a.accepted = true) (hd : a.dir = .read) (s : State) :
    performAccess a s = .next (s.respond (.readData (regRead s.engine a.off))) := by
  simp only [performAccess, ha, hd, if_true]

/-- An accepted write is answered and performed (R41, R108). -/
theorem performAccess_write {a : Access} {v : Reg32} (ha : a.accepted = true) (hd : a.dir = .write v) (s : State) :
    performAccess a s = regWrite a.off v (s.respond .writeDone) := by
  simp only [performAccess, ha, hd, if_true]

/-- A write to CMD of a word that decodes to a command performs it (R99). -/
theorem regWrite_command {off : BitVec 12} {v : Reg32} {i : Instr} (hr : registerAt off = some .cmd)
    (hd : decode v = .command i) (s : State) : regWrite off v s = exec i s := by
  simp only [regWrite, hr, commandWrite, hd]

/-- A write to a register other than CMD stores (R108). -/
theorem regWrite_store {off : BitVec 12} {r : Register} (hr : registerAt off = some r) (hc : r ≠ .cmd) (v : Reg32)
    (s : State) : regWrite off v s = .next (s.withEngine (s.engine.store r v)) := by
  cases r with
  | cmd => exact absurd rfl hc
  | _ => simp only [regWrite, hr]; rfl

/-- The first of the accesses that deliver a stream: a read, a write to a reserved offset, a store, a NOP, or an ABSORB,
which hands over the first bytes of the payload (R109). -/
theorem deliveredBy_cons_cases {e : Engine} {h : HostAction} {rest : List HostAction} {m : List Byte}
    (hd : deliveredBy e.dataLo e.dataHi (h :: rest) = some m) :
    ∃ a, h = .access a ∧ a.accepted = true ∧
      ((a.dir = .read ∧ deliveredBy e.dataLo e.dataHi rest = some m) ∨
      ∃ v, a.dir = .write v ∧
        ((registerAt a.off = none ∧ deliveredBy e.dataLo e.dataHi rest = some m) ∨
        (∃ r, registerAt a.off = some r ∧ r ≠ .cmd ∧
          deliveredBy (e.store r v).dataLo (e.store r v).dataHi rest = some m) ∨
        (registerAt a.off = some .cmd ∧ decode v = .command .nop ∧ deliveredBy e.dataLo e.dataHi rest = some m) ∨
        ∃ nm1 m', registerAt a.off = some .cmd ∧ decode v = .command (.absorb nm1) ∧
          deliveredBy e.dataLo e.dataHi rest = some m' ∧ m = e.operand (byteCount nm1) ++ m')) := by
  cases h with
  | poll => cases hd
  | access a =>
    by_cases ha : a.accepted = true
    case neg => simp [deliveredBy, ha] at hd
    refine ⟨a, rfl, ha, ?_⟩
    simp only [deliveredBy, if_pos ha] at hd
    cases hdir : a.dir with
    | read => exact .inl ⟨rfl, by simpa only [hdir] using hd⟩
    | write v =>
      refine .inr ⟨v, rfl, ?_⟩
      simp only [hdir] at hd
      rcases hr : registerAt a.off with _ | r
      · exact .inl ⟨rfl, by simpa only [hr] using hd⟩
      · simp only [hr] at hd
        cases r with
        | cmd =>
          dsimp only at hd
          split at hd
          next hdec => exact .inr (.inr (.inl ⟨rfl, hdec, hd⟩))
          next nm1 hdec =>
            obtain ⟨m', hm', rfl⟩ := Option.map_eq_some_iff.1 hd
            exact .inr (.inr (.inr ⟨nm1, m', rfl, hdec, hm', rfl⟩))
          next => cases hd
        | _ => exact .inr (.inl ⟨_, rfl, nofun, hd⟩)

/-- The run is open and has absorbed the stream `m`: ACC is its fold and LEN its length (R80). -/
structure Engine.Absorbed (e : Engine) (m : List Byte) : Prop where
  st : e.st = .absorb
  acc : e.acc = fold m
  len : e.len.toNat = m.length

/-- INIT opens a run that has absorbed nothing (R102). -/
theorem Engine.Absorbed.openRun (e : Engine) : e.openRun.Absorbed [] := ⟨rfl, rfl, rfl⟩

/-- A store leaves the run as it is (R108). -/
theorem Engine.Absorbed.store {e : Engine} {m : List Byte} (h : e.Absorbed m) (r : Register) (v : Reg32) :
    (e.store r v).Absorbed m :=
  ⟨by simp [h.st], by simp [h.acc], by simp [h.len]⟩

/-- An accepted ABSORB appends its operand to the stream (R76). -/
theorem Engine.Absorbed.absorb {e : Engine} {m : List Byte} (h : e.Absorbed m) {n : Nat} (hn : n ≤ 8)
    (hfit : e.len.toNat + n ≤ 2 ^ 64 - 1) : (e.absorb n).Absorbed (m ++ e.operand n) where
  st := h.st
  acc := by rw [Engine.absorb_acc, fold_append, h.acc, h.len]
  len := by rw [Engine.toNat_absorb_len hfit, List.length_append, length_operand e n hn, h.len]

/-- The engine has absorbed the beginning of `m`, and the host's pending accesses deliver the rest: the invariant of a
delivery, whatever the split (R77). -/
def State.Delivers (s : State) (m : List Byte) : Prop :=
  ∃ before after, m = before ++ after ∧ s.engine.Absorbed before ∧
    deliveredBy s.engine.dataLo s.engine.dataHi s.host = some after

/-- When no access is pending, the whole stream is absorbed. -/
theorem State.Delivers.absorbed {s : State} {m : List Byte} (h : s.Delivers m) (hh : s.host = []) :
    s.engine.Absorbed m := by
  obtain ⟨before, after, rfl, habs, hd⟩ := h
  obtain rfl : [] = after := by simpa [hh, deliveredBy] using hd
  simpa using habs

/-- The next access of a delivery is performed and keeps the delivery going (R76, R77). -/
theorem State.Delivers.hostTurn_next {s : State} {m : List Byte} {h : HostAction} {rest : List HostAction}
    (hs : s.Delivers m) (hlen : m.length ≤ 2 ^ 64 - 1) (hh : s.host = h :: rest) :
    ∃ t, hostTurn s = .next t ∧ t.host = rest ∧ t.schedule = s.schedule ∧ t.Delivers m := by
  obtain ⟨before, after, rfl, habs, hd⟩ := hs
  rw [hh] at hd
  obtain ⟨a, rfl, ha, ⟨hdir, hrest⟩ | ⟨v, hdir, hwrite⟩⟩ := deliveredBy_cons_cases hd
  · exact ⟨_, (hostTurn_access hh).trans (performAccess_read ha hdir _), rfl, rfl, before, after, rfl, habs, hrest⟩
  · have turn := (hostTurn_access hh).trans (performAccess_write ha hdir _)
    rcases hwrite with ⟨hr, hrest⟩ | ⟨r, hr, hcmd, hrest⟩ | ⟨hr, hdec, hrest⟩ | ⟨nm1, m', hr, hdec, hrest, rfl⟩
    · exact ⟨_, turn.trans (regWrite_reserved hr v _), rfl, rfl, before, after, rfl, habs, hrest⟩
    · exact ⟨_, turn.trans (regWrite_store hr hcmd v _), rfl, rfl, before, after, rfl, habs.store r v, hrest⟩
    · exact ⟨_, turn.trans (regWrite_command hr hdec _), rfl, rfl, before, after, rfl, habs, hrest⟩
    · have hn := byteCount_le nm1
      have hfit : s.engine.len.toNat + byteCount nm1 ≤ 2 ^ 64 - 1 := by
        simp only [List.length_append, length_operand _ _ hn] at hlen
        rw [habs.len]
        omega
      exact ⟨_, turn.trans ((regWrite_command hr hdec _).trans (exec_absorb_of_fits habs.st hfit)), rfl, rfl,
        before ++ s.engine.operand (byteCount nm1), m', (List.append_assoc ..).symm, habs.absorb hn hfit, hrest⟩

/-- A run goes on from the next state of its first step. -/
theorem runSteps_succ {k : Nat} {s u : State} (h : step s = .next u) : runSteps (k + 1) s = runSteps k u := by
  simp only [runSteps, h]

/-- When the host has the turns, a delivery runs to its end (R77). -/
theorem State.Delivers.runSteps_next {m : List Byte} (hlen : m.length ≤ 2 ^ 64 - 1) (body : List HostAction) {s : State}
    (hs : s.Delivers m) (hh : s.host = body) (hsch : s.schedule = List.replicate body.length .host) :
    ∃ t, runSteps body.length s = .next t ∧ t.host = [] ∧ t.engine.Absorbed m := by
  induction body generalizing s with
  | nil => exact ⟨s, rfl, hh, hs.absorbed hh⟩
  | cons h rest ih =>
    have hcons : s.schedule = .host :: List.replicate rest.length .host := hsch
    have hs' : ({ s with schedule := List.replicate rest.length .host } : State).Delivers m := hs
    obtain ⟨u, hu, huh, hus, hud⟩ := hs'.hostTurn_next hlen hh
    obtain ⟨t, ht⟩ := ih hud huh hus
    exact ⟨t, by rwa [List.length_cons, runSteps_succ ((step_of_schedule hcons).trans hu)]⟩

end Sys2Proof.Machine
end

section
/-! PROOFS. The Block Folder: ABSORB and the commands' frame, the forms of FOLD, and that the split of a stream into
commands does not matter. -/

namespace Sys2Proof.Machine

/-- Settles O7. -/
theorem absorbFoldsThePayload : Obligations.AbsorbFoldsThePayload := by
  rintro nm1 s n rfl
  refine ⟨by revert nm1; decide, fun hst hfit => ?_, exec_absorb_of_exceeds, fun hst => exec_of_legality_none ?_⟩
  · exact ⟨_, _, exec_absorb_of_fits hst hfit, Engine.toNat_absorb_len hfit,
      fun p _ => s.engine.accByte_absorb (byteCount_le nm1) p⟩
  · exact (legality_absorb_eq_none_iff ..).2 hst

/-- Settles O14, over the ways a command ends: each is one named update of the engine, whose field lemmas say what it
leaves. -/
theorem commandsWriteOnlyTheirElements : Obligations.CommandsWriteOnlyTheirElements := by
  intro i s t h
  rcases exec_cases h with ⟨rfl, rfl⟩ | ⟨rfl, -, rfl⟩ | ⟨rfl, -, rfl⟩ | ⟨_, rfl, -, -, rfl⟩ | ⟨_, rfl, -, -, rfl⟩ |
    ⟨_, rfl, -, rfl⟩ | ⟨rfl, -, -, rfl⟩ | ⟨rfl, -, rfl⟩ | ⟨rfl, -, rfl⟩ | ⟨rfl, -, rfl⟩ <;> simp

/-- Settles O43. -/
theorem foldByteForm : Obligations.FoldByteForm :=
  accByte_fold

/-- Settles O44: the algorithm's blocks are the contract's windows, the tail block the last of them. -/
theorem foldAlgorithmMeetsItsContract : Obligations.FoldAlgorithmMeetsItsContract := by
  refine ⟨fun m => ?_, fun m => (tailWords_eq_zero_iff m).2, rfl⟩
  simp only [foldBySteps, tailBlock_eq_window, ← window_eq_inputWords, tailWords_eq_zero_iff, fold]
  split
  case isTrue h =>
    have hcount : (m.length + 159) / 160 = fullWords m / 20 := by simp only [fullWords]; omega
    rw [hcount]
  case isFalse h =>
    have hcount : (m.length + 159) / 160 = fullWords m / 20 + 1 := by simp only [fullWords]; omega
    rw [hcount, List.range_succ, List.foldl_append, List.foldl_cons, List.foldl_nil]

/-- Settles O45: the INIT starts a delivery of the whole stream, and every access of the body keeps it going. -/
theorem segmentationIndependence : Obligations.SegmentationIndependence := by
  intro s body m hst hsch hh hd hlen
  obtain ⟨u, hinit, huh, hus, hdel⟩ : ∃ u, step s = .next u ∧ u.host = body ∧
      u.schedule = List.replicate body.length .host ∧ u.Delivers m :=
    ⟨_, (step_writeCommand hsch hh).trans (if_neg hst), rfl, rfl, [], m, rfl, .openRun s.engine, hd⟩
  obtain ⟨t, ht, hth, habs⟩ := hdel.runSteps_next hlen body huh hus
  refine ⟨t, (runSteps_succ hinit).trans ht, hth, habs.st, habs.acc, fun i hi => ?_, habs.len⟩
  rw [habs.acc, accByte_fold m i hi]

end Sys2Proof.Machine
end

section
/-! SUPPORT. XOR sums of bit vectors, and the Byte Realigner on 160-bit integers: which raw byte a slot holds (R83, R84),
what the rotation and the placement of one byte add (R85, R87), and the closed form of the whole (R89). -/

namespace Sys2Proof

/-! ### XOR sums -/

/-- The XOR of f 0, ..., f (n - 1). -/
def xorSum {w : Nat} (n : Nat) (f : Nat → BitVec w) : BitVec w := (List.range n).foldl (fun v i => v ^^^ f i) 0

@[simp] theorem xorSum_zero {w : Nat} (f : Nat → BitVec w) : xorSum 0 f = 0#w := rfl

theorem xorSum_succ {w : Nat} (n : Nat) (f : Nat → BitVec w) : xorSum (n + 1) f = xorSum n f ^^^ f n := by
  simp [xorSum, List.range_succ]

theorem xorSum_congr {w n : Nat} {f g : Nat → BitVec w} (h : ∀ i, i < n → f i = g i) : xorSum n f = xorSum n g := by
  induction n with
  | zero => rfl
  | succ n ih => rw [xorSum_succ, xorSum_succ, ih fun i hi => h i (Nat.lt_succ_of_lt hi), h n (Nat.lt_succ_self n)]

theorem xorSum_xor {w : Nat} (n : Nat) (f g : Nat → BitVec w) :
    xorSum n (fun i => f i ^^^ g i) = xorSum n f ^^^ xorSum n g := by
  induction n with
  | zero => simp
  | succ n ih => simp only [xorSum_succ, ih]; ac_rfl

@[simp] theorem xorSum_const_zero (w n : Nat) : xorSum n (fun _ => 0#w) = 0#w := by
  induction n with
  | zero => rfl
  | succ n ih => rw [xorSum_succ, ih, BitVec.xor_zero]

/-- A sum of zeros but for one term. -/
theorem xorSum_single {w : Nat} (n p : Nat) (c : BitVec w) :
    xorSum n (fun i => if i = p then c else 0) = if p < n then c else 0 := by
  induction n with
  | zero => rfl
  | succ n ih =>
    rw [xorSum_succ, ih]
    rcases Nat.lt_trichotomy p n with h | rfl | h
    · simp [h, Nat.lt_succ_of_lt h, Nat.ne_of_gt h]
    · simp
    · simp [Nat.not_lt_of_gt h, Nat.ne_of_lt h, Nat.not_lt.2 (Nat.succ_le_of_lt h)]

/-- Changing one term changes the sum by as much. -/
theorem xorSum_of_change {w n p : Nat} {c : BitVec w} {f g : Nat → BitVec w} (hp : p < n)
    (h : ∀ i, i < n → g i = f i ^^^ if i = p then c else 0) : xorSum n g = xorSum n f ^^^ c := by
  rw [xorSum_congr h, xorSum_xor, xorSum_single, if_pos hp]

namespace Machine

/-! ### The 160-bit integer of a block, and its rotation -/

@[simp] theorem getLsbD_int160 (g : Block) (k : Nat) : (int160 g).getLsbD k = (entry g (k / 8)).getLsbD (k % 8) := by
  rw [int160, getLsbD_packLE]
  by_cases hk : k < 160
  · have h : k / 8 < 20 := by omega
    simp [hk, entry, List.getD_eq_getElem?_getD, h]
  · rw [entry_of_ge g _ (by omega)]
    simp [hk]

@[simp] theorem int160_blockXor (g h : Block) : int160 (blockXor g h) = int160 g ^^^ int160 h := by
  refine BitVec.eq_of_getLsbD_eq fun k _ => ?_
  simp

@[simp] theorem int160_blockZero : int160 Block.zero = 0#160 := by
  refine BitVec.eq_of_getLsbD_eq fun k _ => ?_
  simp

@[simp] theorem rotl160_xor (v u : BitVec 160) (s : Nat) : rotl160 (v ^^^ u) s = rotl160 v s ^^^ rotl160 u s := by
  unfold rotl160
  split
  · rfl
  · refine BitVec.eq_of_getLsbD_eq fun k hk => ?_
    by_cases h : k < s
    · simp [h]
    · have hout : 160 ≤ 160 - s + k := by omega
      simp [h, hk, BitVec.getLsbD_of_ge, hout]

@[simp] theorem rotl160_zero (s : Nat) : rotl160 0#160 s = 0#160 := by simp [rotl160]

/-- A rotation by 8a and a rotation by s are one by 8a + s (R89). -/
theorem rotl160_rotl160 (v : BitVec 160) {s r : Nat} (h : s + r < 160) :
    rotl160 (rotl160 v s) r = rotl160 v (s + r) := by
  refine BitVec.eq_of_getLsbD_eq fun k hk => ?_
  have hsum : ((k + 160 - r) % 160 + 160 - s) % 160 = (k + 160 - (s + r)) % 160 := by omega
  rw [getLsbD_rotl160 _ _ _ (by omega) hk, getLsbD_rotl160 _ _ _ (by omega) (by omega),
    getLsbD_rotl160 _ _ _ h hk, hsum]

/-- Bit b of a byte rotated to bit offset d lands at bit d + b, around the end (R89). -/
theorem getLsbD_rotl160_byte (c : Byte) {d b : Nat} (hd : d < 160) (hb : b < 8) :
    (rotl160 (c.setWidth 160) d).getLsbD ((d + b) % 160) = c.getLsbD b := by
  have hback : ((d + b) % 160 + 160 - d) % 160 = b := by omega
  have hb160 : b < 160 := by omega
  rw [getLsbD_rotl160 _ _ _ hd (by omega), hback]
  simp [hb160]

/-- The byte-wise rotation with carry is the rotation of the little-endian integer (R85). -/
theorem int160_rotlBytes (g : Block) {s : Nat} (h1 : 1 ≤ s) (h7 : s ≤ 7) :
    int160 (rotlBytes g s) = rotl160 (int160 g) s := by
  refine BitVec.eq_of_getLsbD_eq fun k hk => ?_
  have hj : k / 8 < 20 := by omega
  have hb : k % 8 < 8 := by omega
  rw [getLsbD_rotl160 _ _ _ (by omega) hk, getLsbD_int160, getLsbD_int160, rotlBytes, entry_ofFn _ _ hj]
  by_cases hcarry : k % 8 < s
  · have hbyte : (k + 160 - s) % 160 / 8 = (k / 8 + 19) % 20 := by omega
    have hbit : (k + 160 - s) % 160 % 8 = 8 - s + k % 8 := by omega
    simp [hcarry, hbyte, hbit]
  · have hbyte : (k + 160 - s) % 160 / 8 = k / 8 := by omega
    have hbit : (k + 160 - s) % 160 % 8 = k % 8 - s := by omega
    have hout : 8 ≤ 8 - s + k % 8 := by omega
    have hlt : k % 8 - s < 8 := by omega
    simp [hcarry, hb, hbyte, hbit, BitVec.getLsbD_of_ge, hout, BitVec.getLsbD_eq_getElem hlt]

/-- After the rotation step group s is rotated by s bits; for group 0 that is no rotation (R85, R86). -/
theorem int160_rotatedGroup (g : Vector Block 8) {s : Nat} (hs : s < 8) :
    int160 (rotatedGroup g s) = rotl160 (int160 (g[s]?.getD Block.zero)) s := by
  unfold rotatedGroup
  split
  case isTrue h => rw [h, rotl160, if_pos rfl]
  case isFalse h => exact int160_rotlBytes _ (by omega) (by omega)

/-- The combination of the groups as an XOR of rotated integers (R87). -/
theorem int160_combineGroups (g : Vector Block 8) :
    int160 (combineGroups g) = xorSum 8 fun s => rotl160 (int160 (g[s]?.getD Block.zero)) s := by
  have hfold : ∀ n, int160 ((List.range n).foldl (fun r s => blockXor r (rotatedGroup g s)) Block.zero) =
      xorSum n fun s => int160 (rotatedGroup g s) := by
    intro n
    induction n with
    | zero => exact int160_blockZero
    | succ n ih => simp [List.range_succ, xorSum_succ, ih]
  rw [combineGroups, hfold]
  exact xorSum_congr fun s hs => int160_rotatedGroup g hs

/-! ### The placement -/

/-- The raw byte whose slot is offset a of Shift Group s (R83). -/
def rawIndex (s a : Nat) : Nat := 131 * (8 * a + s) % 160

/-- A raw byte's slot determines it, and every slot is one raw byte's (R83). -/
theorem slot_eq_iff {i s a : Nat} (hi : i < 160) (hs : s < 8) (ha : a < 20) :
    s = shiftOf i ∧ a = alignIndex i ↔ rawIndex s a = i := by
  have hslot : s = shiftOf i ∧ a = alignIndex i ↔ 8 * a + s = truePos i := by
    simp only [shiftOf, alignIndex]
    omega
  have hinverse : 8 * a + s = truePos i ↔ rawIndex s a = i := by
    simp only [truePos, rawIndex]
    omega
  exact hslot.trans hinverse

theorem shiftOf_lt (i : Nat) : shiftOf i < 8 := by
  simp only [shiftOf]
  omega

theorem alignIndex_lt (i : Nat) : alignIndex i < 20 := by
  simp only [alignIndex, truePos]
  omega

/-- Group s' after a byte is placed in group s. -/
theorem getD_placeAt (g : Vector Block 8) {s : Nat} (hs : s < 8) (a s' : Nat) (b : Byte) :
    (placeAt g s a b)[s']?.getD Block.zero =
      if s' = s then (g[s]?.getD Block.zero).setIfInBounds a b else g[s']?.getD Block.zero := by
  rw [placeAt, Vector.getElem?_setIfInBounds]
  by_cases h : s' = s
  · simp [h, hs]
  · simp [h, Ne.symm h]

/-- Placing a byte changes its slot and no other. -/
theorem entry_placeAt (g : Vector Block 8) {s a : Nat} (hs : s < 8) (ha : a < 20) (s' a' : Nat) (b : Byte) :
    entry ((placeAt g s a b)[s']?.getD Block.zero) a' =
      if s' = s ∧ a' = a then b else entry (g[s']?.getD Block.zero) a' := by
  rw [getD_placeAt g hs]
  by_cases h : s' = s
  · simp [h, entry_setIfInBounds _ _ _ _ ha]
  · simp [h]

/-- The Shift Groups after the first n raw bytes are placed. -/
def shiftGroupsUpTo (x : Acc) (n : Nat) : Vector Block 8 :=
  (List.range n).foldl (fun g i => placeAt g (shiftOf i) (alignIndex i) (accByte x i)) (Vector.replicate 8 Block.zero)

theorem shiftGroups_eq (x : Acc) : shiftGroups x = shiftGroupsUpTo x 160 := rfl

theorem shiftGroupsUpTo_succ (x : Acc) (n : Nat) :
    shiftGroupsUpTo x (n + 1) = placeAt (shiftGroupsUpTo x n) (shiftOf n) (alignIndex n) (accByte x n) := by
  simp [shiftGroupsUpTo, List.range_succ]

@[simp] theorem getD_shiftGroupsUpTo_zero (x : Acc) (s : Nat) :
    (shiftGroupsUpTo x 0)[s]?.getD Block.zero = Block.zero := by
  by_cases h : s < 8 <;> simp [shiftGroupsUpTo, h]

/-- A slot holds its raw byte once that is placed, and zero before (R84). -/
theorem entry_shiftGroupsUpTo (x : Acc) {s a : Nat} (hs : s < 8) (ha : a < 20) {n : Nat} (hn : n ≤ 160) :
    entry ((shiftGroupsUpTo x n)[s]?.getD Block.zero) a = if rawIndex s a < n then accByte x (rawIndex s a) else 0 := by
  induction n with
  | zero => simp
  | succ n ih =>
    have hlt : rawIndex s a < n + 1 ↔ rawIndex s a = n ∨ rawIndex s a < n := by omega
    rw [shiftGroupsUpTo_succ, entry_placeAt _ (shiftOf_lt n) (alignIndex_lt n), ih (Nat.le_of_succ_le hn)]
    simp only [slot_eq_iff hn hs ha, hlt]
    by_cases hnow : rawIndex s a = n <;> simp [hnow]

/-! ### The closed form -/

/-- Filling an empty place a of a block adds the byte at bit 8a of its integer. -/
theorem int160_setIfInBounds {g : Block} {a : Nat} (ha : a < 20) (hempty : entry g a = 0) (b : Byte) :
    int160 (g.setIfInBounds a b) = int160 g ^^^ rotl160 (b.setWidth 160) (8 * a) := by
  refine BitVec.eq_of_getLsbD_eq fun k hk => ?_
  rw [BitVec.getLsbD_xor, getLsbD_int160, getLsbD_int160, entry_setIfInBounds _ _ _ _ ha,
    getLsbD_rotl160 _ _ _ (by omega) hk]
  by_cases h : k / 8 = a
  · have hbit : (k + 160 - 8 * a) % 160 = k % 8 := by omega
    have hlt : k % 8 < 160 := by omega
    simp [h, hempty, hbit, hlt]
  · have hout : 8 ≤ (k + 160 - 8 * a) % 160 := by omega
    simp [h, BitVec.getLsbD_of_ge, hout]

/-- Placing a byte in an empty slot (s, a) adds it to the combination at bit offset 8a + s (R89). -/
theorem int160_combineGroups_placeAt {g : Vector Block 8} {s a : Nat} (hs : s < 8) (ha : a < 20)
    (hempty : entry (g[s]?.getD Block.zero) a = 0) (b : Byte) :
    int160 (combineGroups (placeAt g s a b)) =
      int160 (combineGroups g) ^^^ rotl160 (b.setWidth 160) (8 * a + s) := by
  rw [int160_combineGroups, int160_combineGroups]
  refine xorSum_of_change hs fun r _ => ?_
  rw [getD_placeAt g hs]
  split
  case isTrue h => rw [h, int160_setIfInBounds ha hempty, rotl160_xor, rotl160_rotl160 _ (by omega)]
  case isFalse => simp

/-- The closed form over the first n raw bytes (R89). -/
theorem int160_combineGroups_shiftGroupsUpTo (x : Acc) {n : Nat} (hn : n ≤ 160) :
    int160 (combineGroups (shiftGroupsUpTo x n)) =
      xorSum n fun i => rotl160 ((accByte x i).setWidth 160) (11 * i % 160) := by
  induction n with
  | zero =>
    rw [int160_combineGroups]
    simp
  | succ n ih =>
    have hraw : rawIndex (shiftOf n) (alignIndex n) = n :=
      (slot_eq_iff hn (shiftOf_lt n) (alignIndex_lt n)).1 ⟨rfl, rfl⟩
    have hempty : entry ((shiftGroupsUpTo x n)[shiftOf n]?.getD Block.zero) (alignIndex n) = 0 := by
      rw [entry_shiftGroupsUpTo x (shiftOf_lt n) (alignIndex_lt n) (Nat.le_of_succ_le hn), hraw,
        if_neg (Nat.lt_irrefl n)]
    have hpos : 8 * alignIndex n + shiftOf n = 11 * n % 160 := by
      rw [alignIndex, shiftOf, Nat.div_add_mod, truePos, Nat.mul_comm]
    rw [shiftGroupsUpTo_succ, int160_combineGroups_placeAt (shiftOf_lt n) (alignIndex_lt n) hempty, hpos,
      ih (Nat.le_of_succ_le hn), xorSum_succ]

theorem skewedSum_eq (x : Acc) :
    skewedSum x = xorSum 160 fun i => rotl160 ((accByte x i).setWidth 160) (11 * i % 160) := rfl

/-- The closed form of REALIGN (R89). -/
theorem realign_eq (x : Acc) : realign x = reverseBlock (bytes20 (skewedSum x)) := by
  rw [realign, shiftGroups_eq, skewedSum_eq, ← int160_combineGroups_shiftGroupsUpTo x (le_refl _), bytes20_int160]

theorem skewedSum_accXor (x y : Acc) : skewedSum (accXor x y) = skewedSum x ^^^ skewedSum y := by
  simp only [skewedSum_eq, ← xorSum_xor, accByte_accXor, BitVec.setWidth_xor, rotl160_xor]

/-- The closed form over the fold of a message: a byte more adds its term (R89). -/
theorem skewedSum_fold (m : List Byte) :
    skewedSum (fold m) = xorSum m.length fun k => rotl160 ((m.getD k 0).setWidth 160) (11 * k % 160) := by
  induction m using List.reverseRecOn with
  | nil =>
    have hempty : fold [] = Acc.zero := rfl
    simp [hempty, skewedSum_eq]
  | append_singleton m b ih =>
    have hinit : (xorSum m.length fun k => rotl160 (((m ++ [b]).getD k 0).setWidth 160) (11 * k % 160)) =
        xorSum m.length fun k => rotl160 ((m.getD k 0).setWidth 160) (11 * k % 160) :=
      xorSum_congr fun k hk => by rw [List.getD_append _ _ _ _ hk]
    have hlast : (m ++ [b]).getD m.length 0 = b := by simp
    have hwrap : 11 * (m.length % 160) % 160 = 11 * m.length % 160 := by omega
    rw [List.length_append, List.length_singleton, xorSum_succ, hinit, hlast, ← ih, skewedSum_eq, skewedSum_eq]
    refine xorSum_of_change (Nat.mod_lt m.length (by decide)) fun i hi => ?_
    rw [accByte_fold _ i hi, accByte_fold _ i hi, foldByte_concat]
    by_cases h : m.length % 160 = i
    · simp [← h, hwrap]
    · simp [h, Ne.symm h]

end Machine

end Sys2Proof
end

section
/-! PROOFS. The Byte Realigner: the placement, the rotation, the closed form and its linearity. -/

namespace Sys2Proof.Machine

/-- Settles O46: `slot_eq_iff` is the bijection, and after all 160 placements every slot holds its byte. -/
theorem placementFillsTheShiftGroups : Obligations.PlacementFillsTheShiftGroups := by
  refine ⟨fun i hi => ⟨shiftOf_lt i, alignIndex_lt i, ?_⟩, fun s hs a ha => ?_, fun x s a hs ha => ?_⟩
  · exact (slot_eq_iff hi (shiftOf_lt i) (alignIndex_lt i)).1 ⟨rfl, rfl⟩
  · have hlt : rawIndex s a < 160 := Nat.mod_lt _ (by decide)
    obtain ⟨hshift, halign⟩ := (slot_eq_iff hlt hs ha).2 rfl
    exact ⟨hlt, hshift.symm, halign.symm⟩
  · rw [shiftGroups_eq, entry_shiftGroupsUpTo x hs ha (le_refl _)]
    exact if_pos (Nat.mod_lt _ (by decide))

/-- Settles O47: the integer of the rotated bytes is the rotated integer. -/
theorem rotationIsOfTheLittleEndianBitString : Obligations.RotationIsOfTheLittleEndianBitString := by
  refine fun s h1 h7 => ⟨fun gs => if_neg (by omega), fun g => ⟨fun j hj => entry_ofFn _ j hj, ?_⟩⟩
  rw [← int160_rotlBytes g h1 h7, bytes20_int160]

/-- Settles O48. -/
theorem realignClosedForm : Obligations.RealignClosedForm := by
  refine ⟨realign_eq, fun c i b _ hb => ?_, skewedSum_fold⟩
  rw [← getLsbD_rotl160_byte c (Nat.mod_lt (11 * i) (by decide)) hb, Nat.mod_add_mod]

/-- Settles O49: the closed form is linear, and the zero Accumulator is the XOR of itself with itself. -/
theorem realignIsLinear : Obligations.RealignIsLinear := by
  have hlinear : ∀ x y : Acc, realign (accXor x y) = blockXor (realign x) (realign y) := by
    intro x y
    refine eq_of_entry_eq fun j hj => ?_
    have hrev : 19 - j < 20 := by omega
    simp [realign_eq, skewedSum_accXor, hj, hrev]
  refine ⟨hlinear, ?_⟩
  have hzero : accXor Acc.zero Acc.zero = Acc.zero := eq_of_entry_eq fun i _ => by simp
  calc realign Acc.zero = blockXor (realign Acc.zero) (realign Acc.zero) := by rw [← hlinear, hzero]
    _ = Block.zero := eq_of_entry_eq fun j _ => by simp

end Sys2Proof.Machine
end

section
/-! SUPPORT. The Length Injector byte by byte (R93), and the digest of a message with one byte that is not zero (R89,
R97). -/

namespace Sys2Proof.Machine

/-- The bytes of INJECT (R93). -/
theorem entry_inject (x : Block) (l : Word64) {j : Nat} (hj : j < 20) :
    entry (inject x l) j = if j < 8 then entry x j ^^^ byteAt l j else entry x j :=
  entry_ofFn _ j hj

/-- The length is read back from the first 8 bytes, so INJECT is injective in it (R95). -/
theorem length_eq_of_inject_eq {x : Block} {l1 l2 : Word64} (h : inject x l1 = inject x l2) : l1 = l2 := by
  refine eq_of_byteAt_eq fun j hj => ?_
  have hj8 : j < 8 := by omega
  have hbyte := congrArg (fun d => entry d j) h
  simpa [entry_inject _ _ (show j < 20 by omega), hj8] using hbyte

/-- The bytes of a message's digest, from the closed form of REALIGN (R89, R97). -/
theorem entry_qxh (m : List Byte) {j : Nat} (hj : j < 20) :
    entry (qxh m) j =
      if j < 8 then byteAt (skewedSum (fold m)) (19 - j) ^^^ byteAt (BitVec.ofNat 64 m.length) j
      else byteAt (skewedSum (fold m)) (19 - j) := by
  rw [qxh, qxhDigest, entry_inject _ _ hj, realign_eq, entry_reverseBlock _ _ hj, entry_bytes20 _ _ (by omega)]

/-- A message of zeros but for the byte b at position p. -/
def byteAmongZeros (p q : Nat) (b : Byte) : List Byte := List.replicate p 0 ++ [b] ++ List.replicate q 0

@[simp] theorem length_byteAmongZeros (p q : Nat) (b : Byte) : (byteAmongZeros p q b).length = p + q + 1 := by
  simp [byteAmongZeros]
  omega

theorem getD_byteAmongZeros (p q : Nat) (b : Byte) (k : Nat) :
    (byteAmongZeros p q b).getD k 0 = if k = p then b else 0 := by
  rw [byteAmongZeros, List.append_assoc]
  rcases Nat.lt_or_ge k p with h | h
  · rw [List.getD_append _ _ _ _ (by simpa using h), if_neg (Nat.ne_of_lt h)]
    simp
  · rw [List.getD_append_right _ _ _ _ (by simpa using h), List.length_replicate]
    obtain ⟨d, rfl⟩ := Nat.exists_eq_add_of_le h
    rw [Nat.add_sub_cancel_left]
    cases d <;> simp

/-- The closed form over such a message is the term of that byte alone (R89). -/
theorem skewedSum_fold_byteAmongZeros (p q : Nat) (b : Byte) :
    skewedSum (fold (byteAmongZeros p q b)) = rotl160 (b.setWidth 160) (11 * p % 160) := by
  have hterm : ∀ k, k < (byteAmongZeros p q b).length →
      rotl160 (((byteAmongZeros p q b).getD k 0).setWidth 160) (11 * k % 160) =
        if k = p then rotl160 (b.setWidth 160) (11 * p % 160) else 0 := fun k _ => by
    rw [getD_byteAmongZeros]
    by_cases h : k = p <;> simp [h]
  rw [skewedSum_fold, xorSum_congr hterm, xorSum_single, if_pos (by simp)]

@[simp] theorem Engine.store_errLen (r : Register) (v : Reg32) (e : Engine) : (e.store r v).errLen = e.errLen :=
  e.store_flagOf r v .lengthOverflow

end Sys2Proof.Machine
end

section
/-! PROOFS. The Length Injector, and the overflowed run whose length never reaches it (R96). -/

namespace Sys2Proof.Machine

/-- Settles O51. -/
theorem injectXorsTheLengthIntoBytesZeroToSeven : Obligations.InjectXorsTheLengthIntoBytesZeroToSeven := by
  refine fun x l j => ⟨fun h8 => ?_, fun h8 h20 => ?_⟩
  · rw [entry_inject x l (by omega), if_pos h8, byteAt]
  · rw [entry_inject x l h20, if_neg (Nat.not_lt.2 h8)]

/-- Settles O50: the byte 0xa0 at position 72 lands on byte 0 of the digest, where the length 160 cancels it. -/
theorem injectIsInjectiveInTheLength : Obligations.InjectIsInjectiveInTheLength := by
  refine ⟨fun x l1 l2 hne h => hne (length_eq_of_inject_eq h), ?_⟩
  refine eq_of_entry_eq fun j hj => ?_
  rw [List.nil_append, ← byteAmongZeros, entry_qxh _ hj, entry_qxh _ hj, skewedSum_fold_byteAmongZeros,
    length_byteAmongZeros, skewedSum_fold]
  revert j
  decide

/-- Settles O24: an overflowed run refuses FINAL and is not BUSY, so only reset, INIT and FAIL take it out of ABSORB or
clear ERR_LEN. -/
theorem overflowedRunClosesOnlyByInitFailOrReset : Obligations.OverflowedRunClosesOnlyByInitFailOrReset := by
  intro s t h hst hlen
  obtain ⟨ev, p, he⟩ := step_performs h
  rw [p.nextTurn_eq_reset_iff, p.acceptsNow_init_iff, p.acceptsNow_fail_iff, he]
  cases p with
  | complete turn => simp [turn.2] at hst
  | @accepted i accept =>
    obtain ⟨-, hlegal⟩ := accept
    cases i with
    | final => simp [hst, hlen] at hlegal
    | _ => simp [Event.effect, Engine.obey, hst, hlen]
  | _ => simp [Event.effect, hst, hlen]

end Sys2Proof.Machine
end

section
/-! SUPPORT. What each command of the pipeline does where the legality table accepts it (R100, R101, R102, R104, R106). -/

namespace Sys2Proof.Machine

/-- Where a command is accepted, the table's entry is the STATE that its effect leaves (R100). -/
theorem Engine.obey_st {i : Instr} {e : Engine} (h : legality i e.st e.errLen ≠ none) :
    legality i e.st e.errLen = some (e.obey i).st := by
  cases i with
  | nop => exact legality_nop ..
  | init => cases hst : e.st <;> simp_all [legality, Engine.obey]
  | absorb nm1 => cases hst : e.st <;> simp_all [legality, Engine.obey]
  | final => cases hst : e.st <;> cases hl : e.errLen <;> simp_all [legality, Engine.obey]
  | fail => cases hst : e.st <;> simp_all [legality, Engine.obey]

/-- Of the commands' own effects only INIT's writes ERR_SEQ (R102, R23). -/
theorem Engine.obey_errSeq {i : Instr} (h : i ≠ .init) (e : Engine) : (e.obey i).errSeq = e.errSeq := by
  cases i with
  | init => exact absurd rfl h
  | _ => rfl

/-- In an open run without an overflow FINAL makes the engine BUSY (R104). -/
theorem exec_final_of_absorb {s : State} (hst : s.engine.st = .absorb) (hl : s.engine.errLen = false) :
    exec .final s = .next (s.withEngine s.engine.closeStream) := by
  rw [exec, execFinal, if_neg (not_not.2 hst), if_neg (by simp [hl])]

/-- A command that the legality table accepts has its own effect, or is an ABSORB that exceeds LEN (R100, R117). -/
theorem exec_of_legality_ne_none {i : Instr} {s : State} (h : legality i s.engine.st s.engine.errLen ≠ none) :
    exec i s = .next (s.withEngine (s.engine.obey i)) ∨
      ∃ nm1, i = .absorb nm1 ∧ exec i s = .next (s.raise .lengthOverflow) := by
  cases i with
  | nop => exact .inl rfl
  | init => exact .inl (if_neg (by simpa using h))
  | absorb nm1 =>
    have hst : s.engine.st = .absorb := by simpa using h
    by_cases hfit : s.engine.len.toNat + byteCount nm1 ≤ 2 ^ 64 - 1
    · exact .inl (exec_absorb_of_fits hst hfit)
    · exact .inr ⟨nm1, rfl, exec_absorb_of_exceeds hst (Nat.lt_of_not_le hfit)⟩
  | final =>
    obtain ⟨hst, hl⟩ : s.engine.st = .absorb ∧ s.engine.errLen = false := by simpa using h
    exact .inl (exec_final_of_absorb hst hl)
  | fail => exact .inl (if_neg (by simpa using h))

/-- Only NOP has OP = 0 (R61, R101). -/
theorem opField_encode_eq_zero_iff (i : Instr) : opField (encode i) = 0 ↔ i = .nop := by
  cases i with
  | absorb nm1 => revert nm1; decide
  | _ => decide

/-- A register that is not CMD, CFG, DATA_LO or DATA_HI ignores a write (R108). -/
theorem regWrite_ignored {off : BitVec 12} (h4 : off.toNat % 4 = 0) (hcfg : off ≠ Register.cfg.offset)
    (hcmd : off ≠ Register.cmd.offset) (hlo : off ≠ Register.dataLo.offset) (hhi : off ≠ Register.dataHi.offset)
    (v : Reg32) (s : State) : regWrite off v s = .next s := by
  obtain ⟨e, he⟩ := regWrite_next off v s
  rcases regWrite_cases he with ⟨hr, -⟩ | ⟨hr, -⟩ | ⟨hr, -⟩ | ⟨hr, -⟩ | ⟨-, -, -, -, hs⟩
  · exact absurd (offset_of_registerAt h4 hr) hcmd
  · exact absurd (offset_of_registerAt h4 hr) hcfg
  · exact absurd (offset_of_registerAt h4 hr) hlo
  · exact absurd (offset_of_registerAt h4 hr) hhi
  · exact he.trans (congrArg _ hs)

/-- INIT keeps of the engine only the fields that the host writes (R102, R103). -/
theorem Engine.openRun_congr {e e' : Engine} (h : e.hostFields = e'.hostFields) : e.openRun = e'.openRun := by
  simp only [Engine.hostFields, Prod.mk.injEq] at h
  obtain ⟨hcompat, hie, hlo, hhi⟩ := h
  simp only [Engine.openRun, Engine.clearErrors, hcompat, hie, hlo, hhi]

end Sys2Proof.Machine
end

section
/-! PROOFS. The legality table, the commands NOP, INIT, FINAL and FAIL, COMPLETE, register writes, and the digest's
closed form. -/

namespace Sys2Proof.Machine

/-- Settles O11: an accepted command leaves the STATE of its entry, and of a step's events only reset, COMPLETE and
an accepted command change STATE. -/
theorem legalityTableHoldsAndIsAll : Obligations.LegalityTableHoldsAndIsAll := by
  refine ⟨fun i s => ?_, fun s t h hne => ?_, fun s t h => ?_, fun s t h => ?_⟩
  · by_cases hl : legality i s.engine.st s.engine.errLen = none
    · exact ⟨_, exec_of_legality_none hl, by rw [hl]⟩
    · have hst := Engine.obey_st hl
      rcases exec_of_legality_ne_none hl with hx | ⟨nm1, rfl, hx⟩
      · exact ⟨_, hx, by rw [hst]; exact ⟨rfl, fun hi => Engine.obey_errSeq hi _⟩⟩
      · exact ⟨_, hx, by rw [hst]; exact ⟨rfl, fun _ => by simp⟩⟩
  · obtain ⟨ev, p, he⟩ := step_performs h
    rw [he] at hne ⊢
    cases p with
    | reset turn => exact .inl ⟨turn, rfl⟩
    | complete turn => exact .inr (.inl ⟨turn.1, turn.2, Engine.closeRun_st _⟩)
    | accepted accept => exact .inr (.inr ⟨_, accept.1, Engine.obey_st accept.2⟩)
    | store => exact absurd (Engine.store_st ..) hne
    | _ => exact absurd rfl hne
  · cases h
    exact ⟨Engine.complete_st_of_busy, Engine.complete_of_not_busy _⟩
  · cases h
    rfl

/-- Settles O33. -/
theorem registerWritesDoOneThing : Obligations.RegisterWritesDoOneThing := by
  refine fun s v => ⟨rfl, rfl, rfl, rfl, fun off h4 hcfg hcmd hlo hhi => regWrite_ignored h4 hcfg hcmd hlo hhi v s,
    fun off h4 => performAccess_writeOf off v s h4, fun a _ hill => ?_⟩
  rw [performAccess_eq_refused_iff, Access.accepted_iff]
  exact fun ⟨hbits, h4, _⟩ => hill.elim (· hbits) (· h4)

/-- Settles O52: S is the skewed sum of the folded message. -/
theorem digestClosedForm : Obligations.DigestClosedForm := by
  refine fun m _ => ⟨rfl, fun v hv j hj => ?_⟩
  obtain rfl : v = skewedSum (fold m) := hv.trans (skewedSum_fold m).symm
  rw [entry_qxh m hj, entry_bytes20 _ _ (by omega)]
  split
  · rfl
  · exact BitVec.xor_zero.symm

/-- Settles O5. -/
theorem nopHasNoEffect : Obligations.NopHasNoEffect := by
  refine ⟨rfl, fun s => rfl, fun v hop hne => ?_⟩
  cases hd : decode v with
  | illegal r => exact ⟨r, rfl⟩
  | command i =>
    obtain rfl := encode_of_decode hd
    obtain rfl := (opField_encode_eq_zero_iff i).1 hop
    exact absurd rfl hne

/-- Settles O6. -/
theorem initOpensAFreshRun : Obligations.InitOpensAFreshRun :=
  ⟨rfl, fun _ h => if_neg h, fun _ h => if_pos h⟩

/-- Settles O8. -/
theorem finalMakesTheEngineBusy : Obligations.FinalMakesTheEngineBusy :=
  ⟨rfl, fun _ => exec_final_of_absorb, fun _ hst => exec_of_legality_none ((legality_final_eq_none_iff ..).2 (.inl hst)),
    fun _ _ hl => exec_of_legality_none ((legality_final_eq_none_iff ..).2 (.inr hl))⟩

/-- Settles O9. -/
theorem failClosesTheRunWithTheSentinel : Obligations.FailClosesTheRunWithTheSentinel :=
  ⟨rfl, fun _ h => if_neg h, fun _ _ => ⟨_, rfl, rfl⟩, fun _ h => if_pos h⟩

/-- Settles O10. -/
theorem completeWritesTheDigest : Obligations.CompleteWritesTheDigest := by
  refine ⟨fun s hb => ?_, fun s t hb h => ?_, fun s us hs => step_of_schedule hs⟩
  · rw [engineTurn, Engine.complete_of_busy _ hb]
    rfl
  · cases h
    exact Engine.complete_of_not_busy _ hb

/-- Settles O54. -/
theorem initForgetsThePreviousRun : Obligations.InitForgetsThePreviousRun := by
  intro s1 s2 t1 t2 h1 h2 hcompat hie hlo hhi hx1 hx2
  obtain rfl := Host.Outcome.next.inj (hx1.symm.trans (if_neg h1))
  obtain rfl := Host.Outcome.next.inj (hx2.symm.trans (if_neg h2))
  exact Engine.openRun_congr (by simp only [Engine.hostFields, hcompat, hie, hlo, hhi])

end Sys2Proof.Machine
end

section
/-! SUPPORT. The delivery of a message by a host program under any schedule without reset (R109, R143): who takes the
next turn, what a delivered access does, the stages of the delivery, and the measure that every step lowers. -/

namespace Sys2Proof.Machine

/-! ### Turns and runs -/

theorem State.nextTurn_of_noReset {s : State} (h : s.noReset) : s.nextTurn = .host ∨ s.nextTurn = .engine := by
  rcases hs : s.schedule with _ | ⟨u, us⟩
  · by_cases hb : s.engine.st = .busy <;> simp [State.nextTurn, hs, hb]
  · rw [nextTurn_of_schedule hs]
    cases u with
    | host => exact .inl rfl
    | engine => exact .inr rfl
    | reset => simp [State.noReset, hs] at h

theorem step_of_hostTurn {s : State} (h : s.nextTurn = .host) :
    step s = hostTurn { s with schedule := s.schedule.tail } := by
  rw [step, stepOnce, h, takeTurn]

theorem step_of_engineTurn {s : State} (h : s.nextTurn = .engine) :
    step s = .next { s with engine := s.engine.complete, schedule := s.schedule.tail } := by
  rw [step, stepOnce, h]
  rfl

/-- The host moves in BUSY, and the completion agent elsewhere, only where the schedule says so (log entry 2). -/
theorem State.length_schedule_tail_lt {s : State} (h : s.nextTurn = .engine ↔ s.engine.st ≠ .busy) :
    s.schedule.tail.length < s.schedule.length := by
  rcases hs : s.schedule with _ | ⟨u, us⟩
  · by_cases hb : s.engine.st = .busy <;> simp [State.nextTurn, hs, hb] at h
  · simp

/-- A property that the steps keep while a measure falls is kept until a goal is met. -/
theorem runSteps_of_progress {P Q : State → Prop} (work : State → Nat)
    (progress : ∀ s, P s → Q s ∨ ∃ t, step s = .next t ∧ P t ∧ work t < work s) (s : State) (hs : P s) :
    ∃ k t, runSteps k s = .next t ∧ P t ∧ Q t := by
  induction hn : work s using Nat.strong_induction_on generalizing s with
  | _ n ih =>
    rcases progress s hs with hq | ⟨u, hu, hpu, hlt⟩
    · exact ⟨0, s, rfl, hs, hq⟩
    · obtain ⟨k, t, ht, hgoal⟩ := ih (work u) (hn ▸ hlt) u hpu rfl
      exact ⟨k + 1, t, (runSteps_succ hu).trans ht, hgoal⟩

/-! ### The host's commands and WAIT_DONE -/

/-- A command at the head of the host's actions is performed at the host's turn (R99). -/
theorem hostTurn_writeCommand {s : State} {i : Instr} {rest : List HostAction} (h : s.host = writeCommand i :: rest) :
    hostTurn s = exec i { s with host := rest, responses := .writeDone :: s.responses } := by
  rw [hostTurn_writeCmd s (encode i) rest h, commandWrite, decode_encode]

/-- STATUS masked with 0x3 is 0x3 exactly in DONE (R19, R20). -/
theorem Engine.statusWord_and_three_iff (e : Engine) : e.statusWord &&& 0x3 = 0x3 ↔ e.st = .done := by
  have hmask : ∀ v : Reg32, v &&& 0x3 = (v.extractLsb' 0 2).setWidth 32 := fun v => by
    have hmod := Nat.and_two_pow_sub_one_eq_mod v.toNat 2
    have hlt : v.toNat % 4 % 4294967296 = v.toNat % 4 := by omega
    exact BitVec.eq_of_toNat_eq (by simpa [hlt] using hmod)
  rw [hmask, e.statusWord_st]
  cases e.st <;> decide

/-- WAIT_DONE at the host's turn: in DONE the host goes on, elsewhere it polls again (R69). -/
theorem hostTurn_waitDone {s : State} {rest : List HostAction} (h : s.host = waitDone :: rest) :
    ∃ t, hostTurn s = .next t ∧ t.engine = s.engine ∧ t.schedule = s.schedule ∧
      t.host = if s.engine.st = .done then rest else s.host := by
  refine ⟨_, (hostTurn_poll h).trans (performPoll_of_aligned (by decide) ..), rfl, rfl, ?_⟩
  simp only [State.respond_host, regRead_offset, Register.read, Engine.statusWord_and_three_iff]

/-! ### The delivered accesses -/

/-- The run has absorbed a beginning of `m`, FINAL would be accepted, no source failure is reported, and the accesses
`body` deliver the rest of `m` (R104, R109). -/
def Engine.Awaits (e : Engine) (m : List Byte) (body : List HostAction) : Prop :=
  ∃ before after, m = before ++ after ∧ e.Absorbed before ∧ e.errLen = false ∧ e.srcerr = false ∧
    deliveredBy e.dataLo e.dataHi body = some after

theorem Engine.Awaits.st {e : Engine} {m : List Byte} {body : List HostAction} (h : e.Awaits m body) :
    e.st = .absorb := by
  obtain ⟨_, _, _, habs, _⟩ := h
  exact habs.st

/-- When no access is left, the whole message is absorbed. -/
theorem Engine.Awaits.absorbed {e : Engine} {m : List Byte} (h : e.Awaits m []) :
    e.Absorbed m ∧ e.errLen = false ∧ e.srcerr = false := by
  obtain ⟨before, after, rfl, habs, hl, hs, hd⟩ := h
  obtain rfl : [] = after := by simpa [deliveredBy] using hd
  exact ⟨by simpa using habs, hl, hs⟩

/-- The next access of a delivery is performed without an error, whatever the host does after the delivery (R76, R77). -/
theorem Engine.Awaits.hostTurn_next {s : State} {m : List Byte} {h : HostAction} {body tail : List HostAction}
    (hs : s.engine.Awaits m (h :: body)) (hlen : m.length ≤ 2 ^ 64 - 1) (hh : s.host = h :: (body ++ tail)) :
    ∃ t, hostTurn s = .next t ∧ t.host = body ++ tail ∧ t.schedule = s.schedule ∧ t.engine.Awaits m body := by
  obtain ⟨before, after, rfl, habs, hl, hsrc, hd⟩ := hs
  obtain ⟨a, rfl, ha, hcases⟩ := deliveredBy_cons_cases hd
  have same : deliveredBy s.engine.dataLo s.engine.dataHi body = some after → s.engine.Awaits (before ++ after) body :=
    fun hrest => ⟨before, after, rfl, habs, hl, hsrc, hrest⟩
  rcases hcases with ⟨hdir, hrest⟩ | ⟨v, hdir, hwrite⟩
  · exact ⟨_, (hostTurn_access hh).trans (performAccess_read ha hdir _), rfl, rfl, same hrest⟩
  have turn := (hostTurn_access hh).trans (performAccess_write ha hdir _)
  rcases hwrite with ⟨hr, hrest⟩ | ⟨r, hr, hcmd, hrest⟩ | ⟨hr, hdec, hrest⟩ | ⟨nm1, m', hr, hdec, hrest, rfl⟩
  · exact ⟨_, turn.trans (regWrite_reserved hr v _), rfl, rfl, same hrest⟩
  · exact ⟨_, turn.trans (regWrite_store hr hcmd v _), rfl, rfl, before, after, rfl, habs.store r v,
      (s.engine.store_errLen r v).trans hl, (s.engine.store_srcerr r v).trans hsrc, hrest⟩
  · exact ⟨_, turn.trans (regWrite_command hr hdec _), rfl, rfl, same hrest⟩
  · have hn := byteCount_le nm1
    have hfit : s.engine.len.toNat + byteCount nm1 ≤ 2 ^ 64 - 1 := by
      simp only [List.length_append, length_operand _ _ hn] at hlen
      rw [habs.len]
      omega
    exact ⟨_, turn.trans ((regWrite_command hr hdec _).trans (exec_absorb_of_fits habs.st hfit)), rfl, rfl,
      before ++ s.engine.operand (byteCount nm1), m', (List.append_assoc ..).symm, habs.absorb hn hfit, hl, hsrc, hrest⟩

/-! ### The stages of a delivery -/

/-- A closed stream `m`, without a source failure: what FINAL leaves and COMPLETE keeps (R104, R105). -/
structure Engine.Holds (e : Engine) (m : List Byte) : Prop where
  acc : e.acc = fold m
  len : e.len.toNat = m.length
  srcerr : e.srcerr = false

/-- COMPLETE on a closed stream writes the hash of the stream (R97, R105). -/
theorem Engine.Holds.qxhDigest_eq {e : Engine} {m : List Byte} (h : e.Holds m) : qxhDigest e.acc e.len = qxh m := by
  rw [qxh, ← h.acc, ← h.len, BitVec.ofNat_toNat, BitVec.setWidth_eq]

/-- The stages of the engine and of the host's pending actions while INIT, a delivery of `m`, FINAL and WAIT_DONE are
performed (R109). -/
inductive Engine.Hashes (e : Engine) (m : List Byte) (host : List HostAction) : Prop where
  /-- INIT comes next. -/
  | starting (body : List HostAction) (pending : host = writeCommand .init :: (body ++ [writeCommand .final, waitDone]))
    (notBusy : e.st ≠ .busy) (delivers : deliveredBy e.dataLo e.dataHi body = some m)
  /-- The run is open, and some accesses of the delivery are left. -/
  | delivering (body : List HostAction) (pending : host = body ++ [writeCommand .final, waitDone])
    (awaits : e.Awaits m body)
  /-- FINAL is performed, COMPLETE is not. -/
  | waiting (pending : host = [waitDone]) (busy : e.st = .busy) (holds : e.Holds m)
  /-- COMPLETE is performed. -/
  | completed (pending : host = [waitDone] ∨ host = []) (done : e.st = .done) (valid : e.dvalid = true)
    (digest : e.dig = qxh m) (holds : e.Holds m)

/-- What is left to do but for the turns of the schedule: the host's actions, and the COMPLETE that FINAL makes due. -/
def State.remaining (s : State) : Nat := 2 * s.host.length + if s.engine.st = .busy then 1 else 0

/-- The host's turn leads to a stage with less left to do, but for a round of WAIT_DONE in BUSY. -/
theorem Engine.Hashes.hostTurn_next {s : State} {m : List Byte} (p : s.engine.Hashes m s.host)
    (hlen : m.length ≤ 2 ^ 64 - 1) (hh : s.host ≠ []) :
    ∃ t, hostTurn s = .next t ∧ t.schedule = s.schedule ∧ t.engine.Hashes m t.host ∧
      t.remaining ≤ s.remaining ∧ (s.engine.st ≠ .busy → t.remaining < s.remaining) := by
  cases p with
  | starting body pending notBusy delivers =>
    refine ⟨_, (hostTurn_writeCommand pending).trans (if_neg notBusy), rfl,
      .delivering body rfl ⟨[], m, rfl, .openRun _, rfl, rfl, delivers⟩, ?_⟩
    simp [State.remaining, notBusy, pending]
  | delivering body pending awaits =>
    have hst := awaits.st
    cases body with
    | nil =>
      obtain ⟨habs, hl, hsrc⟩ := awaits.absorbed
      refine ⟨_, (hostTurn_writeCommand pending).trans (exec_final_of_absorb hst hl), rfl,
        .waiting rfl rfl ⟨habs.acc, habs.len, hsrc⟩, ?_⟩
      simp [State.remaining, hst, pending]
    | cons h body =>
      obtain ⟨t, ht, hth, hts, hta⟩ := awaits.hostTurn_next hlen pending
      refine ⟨t, ht, hts, .delivering body hth hta, ?_⟩
      simp [State.remaining, hst, hta.st, pending, hth]
  | waiting pending busy holds =>
    obtain ⟨t, ht, hte, hts, hth⟩ := hostTurn_waitDone pending
    rw [if_neg (by simp [busy])] at hth
    refine ⟨t, ht, hts, ?_, ?_⟩
    · rw [hte, hth]
      exact .waiting pending busy holds
    · simp [State.remaining, hte, hth, busy]
  | completed pending done valid digest holds =>
    have hwait := pending.resolve_right hh
    obtain ⟨t, ht, hte, hts, hth⟩ := hostTurn_waitDone hwait
    rw [if_pos done] at hth
    refine ⟨t, ht, hts, ?_, ?_⟩
    · rw [hte, hth]
      exact .completed (.inr rfl) done valid digest holds
    · simp [State.remaining, hte, hth, done, hwait]

/-- COMPLETE leads from the stage that waits for it to the last one, and leaves the other stages. -/
theorem Engine.Hashes.complete {e : Engine} {m : List Byte} {host : List HostAction} (p : e.Hashes m host) :
    e.complete.Hashes m host := by
  by_cases hb : e.st = .busy
  case neg => rwa [Engine.complete_of_not_busy _ hb]
  rw [Engine.complete_eq, if_pos hb]
  cases p with
  | waiting pending busy holds =>
    exact .completed (.inl pending) (by simp) (by simp) (by simp [holds.qxhDigest_eq])
      ⟨by simp [holds.acc], by simp [holds.len], by simp [holds.srcerr]⟩
  | starting _ _ notBusy => exact absurd hb notBusy
  | delivering _ _ awaits => simp [awaits.st] at hb
  | completed _ done => simp [done] at hb

/-- A step of a delivery that is not over leads to a stage with less of the program, of COMPLETE or of the schedule
left. -/
theorem Engine.Hashes.step_next {s : State} {m : List Byte} (hlen : m.length ≤ 2 ^ 64 - 1) (hr : s.noReset)
    (p : s.engine.Hashes m s.host) (hh : s.host ≠ []) :
    ∃ t, step s = .next t ∧ (t.noReset ∧ t.engine.Hashes m t.host) ∧
      t.schedule.length + t.remaining < s.schedule.length + s.remaining := by
  have hr' : Turn.reset ∉ s.schedule.tail := fun h => hr (List.mem_of_mem_tail h)
  have htail : s.schedule.tail.length ≤ s.schedule.length := by simp
  have hlt := s.length_schedule_tail_lt
  rcases State.nextTurn_of_noReset hr with hn | hn
  · obtain ⟨t, ht, hts, hp, hle, hless⟩ :=
      Engine.Hashes.hostTurn_next (s := { s with schedule := s.schedule.tail }) p hlen hh
    refine ⟨t, (step_of_hostTurn hn).trans ht, ⟨by rwa [State.noReset, hts], hp⟩, ?_⟩
    rw [hts]
    by_cases hb : s.engine.st = .busy
    · exact Nat.add_lt_add_of_lt_of_le (hlt (by simp [hn, hb])) hle
    · exact Nat.add_lt_add_of_le_of_lt htail (hless hb)
  · refine ⟨_, step_of_engineTurn hn, ⟨hr', p.complete⟩, ?_⟩
    by_cases hb : s.engine.st = .busy
    · refine Nat.add_lt_add_of_le_of_lt htail ?_
      simp [State.remaining, hb, Engine.complete_st_of_busy]
    · refine Nat.add_lt_add_of_lt_of_le (hlt (by simp [hn, hb])) ?_
      simp [State.remaining, Engine.complete_of_not_busy _ hb]

end Sys2Proof.Machine
end

section
/-! PROOFS. The delivery of a digest, whatever the split of the message and the turns of the completion agent (R109). -/

namespace Sys2Proof.Machine

/-- Settles O53: no stage of the delivery is stuck, each step leaves less to do, and the stage with nothing left holds
the digest. -/
theorem deliveryOfTheDigest : Obligations.DeliveryOfTheDigest := by
  intro s body m hst hr hh hd hlen
  obtain ⟨k, t, ht, ⟨-, p⟩, hhost⟩ := runSteps_of_progress (P := fun s => s.noReset ∧ s.engine.Hashes m s.host)
    (Q := fun s => s.host = []) (fun s => s.schedule.length + s.remaining)
    (fun s ⟨hr, p⟩ => or_iff_not_imp_left.2 (Engine.Hashes.step_next hlen hr p)) s ⟨hr, .starting body hh hst hd⟩
  cases p with
  | completed _ done valid digest holds =>
    refine ⟨k, t, ht, ⟨hhost, by simp [done]⟩, done, valid, holds.srcerr, holds.len, holds.acc, fun q j hq hj => ?_⟩
    rw [← digest]
    exact (digestWindowReads t.engine q hq).1 valid j hj
  | starting _ pending => simp [hhost] at pending
  | delivering _ pending => simp [hhost] at pending
  | waiting pending => simp [hhost] at pending

end Sys2Proof.Machine
end

section
/-! SUPPORT. How a CMD write ends (R99, R120): an ILLEGAL word by the fields of R60, a command by the legality table
and the range of LEN. -/

namespace Sys2Proof.Machine

/-- The words that decode as ILLEGAL, by their fields: an OP that is none of the decoder's five is 5 or more (R60, R64,
R115). -/
theorem exists_decode_illegal_iff_fields (v : Reg32) :
    (∃ r, decode v = .illegal r) ↔
      rsvField v ≠ 0 ∨ 5 ≤ (opField v).toNat ∨ (opField v ≠ 0x2 ∧ nm1Field v ≠ 0) := by
  unfold decode
  generalize rsvField v = rsv, nm1Field v = nm1, opField v = op
  split_ifs with hrsv h2 hnm1 h0 h1 h3 h4
  case neg => exact iff_of_true ⟨_, rfl⟩ (.inr (.inl (by bv_omega)))
  · exact iff_of_true ⟨_, rfl⟩ (.inl hrsv)
  · simp_all
  · exact iff_of_true ⟨_, rfl⟩ (.inr (.inr ⟨h2, hnm1⟩))
  all_goals simp_all

/-- A CMD write of an ILLEGAL word records ILLEGAL_CMD and does nothing else (R65, R115). -/
theorem commandWrite_of_illegal {v : Reg32} {r : IllegalReason} (h : decode v = .illegal r) (s : State) :
    commandWrite v s = .next (s.raise .illegalCmd) := by
  simp only [commandWrite, h]

/-- A CMD write of a command's word performs the command (R99). -/
theorem commandWrite_of_command {v : Reg32} {i : Instr} (h : decode v = .command i) (s : State) :
    commandWrite v s = exec i s := by
  simp only [commandWrite, h]

/-- A command that the legality table accepts, and that fits LEN if it is an ABSORB, has its own effect (R100, R117). -/
theorem exec_of_accepted_of_fits {i : Instr} {s : State} (hl : legality i s.engine.st s.engine.errLen ≠ none)
    (hfit : ∀ nm1, i = .absorb nm1 → s.engine.len.toNat + byteCount nm1 ≤ 2 ^ 64 - 1) :
    exec i s = .next (s.withEngine (s.engine.obey i)) := by
  rcases exec_of_legality_ne_none hl with hx | ⟨nm1, rfl, -⟩
  · exact hx
  · exact exec_absorb_of_fits (by simpa using hl) (hfit nm1 rfl)

/-- Of the commands' own effects only INIT's writes FIRST_ERR or an error flag (R23, R24, R123). -/
theorem Engine.obey_errors {i : Instr} (h : i ≠ .init) (e : Engine) :
    (e.obey i).firstErr = e.firstErr ∧ ∀ c, (e.obey i).flagOf c = e.flagOf c := by
  cases i with
  | init => exact absurd rfl h
  | _ => simp [Engine.obey]

end Sys2Proof.Machine
end

section
/-! PROOFS. The errors: which words raise ILLEGAL_CMD, that a command raises at most one error, and what recording an
error writes. -/

namespace Sys2Proof.Machine

/-- Settles O4. -/
theorem illegalWordsOnlyRecordIllegalCmd : Obligations.IllegalWordsOnlyRecordIllegalCmd :=
  fun v => ⟨(exists_decode_illegal_iff_fields v).symm, fun ⟨_, hd⟩ s => commandWrite_of_illegal hd s⟩

/-- Settles O12, in the order of R120: the decoder, then the legality table, then the range of LEN. -/
theorem oneErrorPerCommandInPriorityOrder : Obligations.OneErrorPerCommandInPriorityOrder := by
  intro v s
  cases hd : decode v with
  | illegal r => exact ⟨_, commandWrite_of_illegal hd s, rfl⟩
  | command i =>
    obtain ⟨e, he⟩ := exec_next i s
    have ends {t : State} (h : exec i s = .next t) : s.withEngine e = t := Host.Outcome.next.inj (he.symm.trans h)
    refine ⟨_, (commandWrite_of_command hd s).trans he, fun hl => ends (exec_of_legality_none hl), fun hl => ⟨?_, ?_⟩⟩
    · rintro nm1 rfl hover
      exact ends (exec_absorb_of_exceeds (by simpa using hl) hover)
    · intro hfit
      rw [ends (exec_of_accepted_of_fits hl hfit)]
      by_cases hi : i = .init
      · exact .inr ⟨hi, hi ▸ Engine.openRun_firstErr _, hi ▸ Engine.openRun_flagOf _⟩
      · exact .inl (Engine.obey_errors hi _)

/-- Settles O13: the CMD write is logged as done before its word is looked at, and the command touches the engine
alone. -/
theorem errorsAreRecordedAndNothingElse : Obligations.ErrorsAreRecordedAndNothingElse := by
  refine ⟨fun s => ?_, fun s v rest hh => ?_⟩
  · cases hf : s.engine.firstErr <;> simp [State.raise, Engine.raise, hf]
  · rw [hostTurn_writeCmd s v rest hh]
    exact commandWrite_next v _

end Sys2Proof.Machine
end

section
/-! SUPPORT. The two turns a BUSY engine can meet without reset (R100, R105, R143): the host's, after which COMPLETE is
still enabled and would write the same digest, and the completion agent's, which performs it. -/

namespace Sys2Proof.Machine

/-- In BUSY nothing but reset and COMPLETE writes STATE, ACC or LEN: every command but NOP is refused (R80, R100). -/
theorem State.Performs.effect_of_busy {s : State} {ev : Event} (p : s.Performs ev) (hb : s.engine.st = .busy)
    (hreset : ev ≠ .reset) (hcomplete : ev ≠ .complete) :
    (ev.effect s.engine).st = .busy ∧ (ev.effect s.engine).acc = s.engine.acc ∧
      (ev.effect s.engine).len = s.engine.len := by
  cases p with
  | reset => exact absurd rfl hreset
  | complete => exact absurd rfl hcomplete
  | quiet | store | illegal | refused => simp [Event.effect, hb]
  | overflow accept => exact absurd (by simp [hb]) accept.2
  | @accepted i accept =>
    have hnop : i = .nop := of_not_not fun hi => accept.2 (hb ▸ legality_busy_eq_none hi _)
    subst hnop
    exact ⟨hb, rfl, rfl⟩

/-- The host's turn uses no entry of the schedule, and adds no action to the host's program. -/
theorem hostTurn_frame {s t : State} (h : hostTurn s = .next t) : t.schedule = s.schedule ∧ t.host ⊆ s.host := by
  rcases hostTurn_cases h with ⟨-, rfl⟩ | ⟨a, rest, hh, -, -, rfl⟩ | ⟨a, rest, v, hh, -, -, hw⟩ |
    ⟨off, mask, value, rest, hh, -, rfl⟩
  · exact ⟨rfl, List.Subset.refl _⟩
  · exact ⟨rfl, hh ▸ List.subset_cons_self ..⟩
  · obtain ⟨e, he⟩ := regWrite_next a.off v { s with host := rest, responses := .writeDone :: s.responses }
    cases he.symm.trans hw
    exact ⟨rfl, hh ▸ List.subset_cons_self ..⟩
  · refine ⟨rfl, ?_⟩
    dsimp only
    split
    · exact hh ▸ List.subset_cons_self ..
    · exact List.Subset.refl _

/-- The host's turn answers a state when the engine accepts what the host is going to do (R42). -/
theorem hostTurn_next_of_hostWellFormed {s : State} (h : s.hostWellFormed) : ∃ t, hostTurn s = .next t := by
  rcases hostTurn_next_or_refused s with hnext | ⟨a, rest, hh, hill, -⟩
  · exact hnext
  · simp [h a (by simp [hh])] at hill

/-- A step of the host in BUSY uses one entry of the schedule and leaves COMPLETE enabled on the same stream (R105). -/
theorem step_hostTurn_of_busy {s : State} (hn : s.nextTurn = .host) (hb : s.engine.st = .busy)
    (hwf : s.hostWellFormed) :
    ∃ t, step s = .next t ∧ t.schedule = s.schedule.tail ∧ t.hostWellFormed ∧ t.engine.st = .busy ∧
      t.engine.acc = s.engine.acc ∧ t.engine.len = s.engine.len := by
  obtain ⟨t, ht⟩ := hostTurn_next_of_hostWellFormed (s := { s with schedule := s.schedule.tail }) hwf
  obtain ⟨hts, hth⟩ := hostTurn_frame ht
  have hstep : step s = .next t := (step_of_hostTurn hn).trans ht
  obtain ⟨ev, p, he⟩ := step_performs hstep
  have hreset : ev ≠ .reset := fun h => by simp [p.nextTurn_eq_reset_iff.2 h] at hn
  have hcomplete : ev ≠ .complete := fun h => by simp [(p.completesNow_iff.2 h).1] at hn
  exact ⟨t, hstep, hts, fun a ha => hwf a (hth ha), he ▸ p.effect_of_busy hb hreset hcomplete⟩

/-- Within `n` steps the engine is DONE, with the valid digest of the present ACC and LEN (R105). -/
def State.CompletesWithin (s : State) (n : Nat) : Prop :=
  ∃ k t, k ≤ n ∧ runSteps k s = .next t ∧ t.engine.st = .done ∧ t.engine.dvalid = true ∧
    t.engine.dig = qxhDigest s.engine.acc s.engine.len

/-- The completion agent's turn in BUSY is COMPLETE. -/
theorem completesWithin_of_engineTurn {s : State} (hn : s.nextTurn = .engine) (hb : s.engine.st = .busy) (n : Nat) :
    s.CompletesWithin (n + 1) := by
  have hstep : step s = .next { s with engine := s.engine.closeRun, schedule := s.schedule.tail } := by
    rw [step_of_engineTurn hn, Engine.complete_eq, if_pos hb]
  exact ⟨1, _, Nat.le_add_left .., runSteps_succ hstep, rfl, rfl, rfl⟩

/-- A step that keeps ACC and LEN puts off the completion by one step. -/
theorem State.CompletesWithin.of_step {s t : State} {n : Nat} (h : t.CompletesWithin n) (hstep : step s = .next t)
    (hacc : t.engine.acc = s.engine.acc) (hlen : t.engine.len = s.engine.len) : s.CompletesWithin (n + 1) := by
  obtain ⟨k, u, hk, hu, hdone, hvalid, hdig⟩ := h
  exact ⟨k + 1, u, Nat.succ_le_succ hk, (runSteps_succ hstep).trans hu, hdone, hvalid, hacc ▸ hlen ▸ hdig⟩

/-- A BUSY engine completes, by induction on the schedule: the host's turns use it up, and where it ends, or before, the
completion agent moves (R143; log entry 2). -/
theorem completesWithin_of_busy {s : State} (hb : s.engine.st = .busy) (hr : s.noReset) (hwf : s.hostWellFormed) :
    s.CompletesWithin (s.schedule.length + 1) := by
  induction hsch : s.schedule generalizing s with
  | nil => exact completesWithin_of_engineTurn (by simp [State.nextTurn, hsch, hb]) hb _
  | cons u us ih =>
    rcases State.nextTurn_of_noReset hr with hn | hn
    · obtain ⟨t, ht, hts, htwf, htb, hacc, hlen⟩ := step_hostTurn_of_busy hn hb hwf
      rw [hsch, List.tail_cons] at hts
      have htr : t.noReset := fun h => hr (by simp [hsch, hts ▸ h])
      exact (ih htb htr htwf hts).of_step ht hacc hlen
    · exact completesWithin_of_engineTurn hn hb _

end Sys2Proof.Machine
end

section
/-! PROOFS. The liveness of COMPLETE under any schedule without reset (R143). -/

namespace Sys2Proof.Machine

/-- Settles O42: the schedule's turns without a COMPLETE are the host's, and each uses up an entry. -/
theorem busyEventuallyCompletes : Obligations.BusyEventuallyCompletes :=
  fun _ hb hr hwf => completesWithin_of_busy hb hr hwf

end Sys2Proof.Machine
end
